-- ==== Sys2Proof/Word.lean ====
section
/-! DEFINITION. The bit-vector types of the D5700 (00_scope.md R8, R14, R15). Every value is unsigned. -/

namespace Sys2Proof

/-- A register, memory or display byte (R31, R43, R45). -/
abbrev Byte := BitVec 8

/-- One operand field of the instruction word, or the opcode (R91). -/
abbrev Nibble := BitVec 4

/-- The 12-bit address operand of JUMP and SET_A (R91). -/
abbrev Addr12 := BitVec 12

/-- The width of pc, of A and of an instruction word (R33, R35, R90). -/
abbrev Word := BitVec 16

/-- The name of a general register r0 to r7 (R31). -/
abbrev RegIx := Fin 8

end Sys2Proof
end

