-- ==== Sys2Proof/Syntax.lean ====
section
/-! DEFINITION. The instruction set as data: the 16 opcodes, the decoder's fields, and one constructor of `Instr`
per row of spec/opcode_table.json. Fields are raw (4 bits may name 0-15): the decoder validates nothing (R92),
and the handlers check (R129). Log 16. -/

namespace Sys2Proof

/-- The 16 opcodes (R99). -/
inductive Opcode where
  | store | add | sub | read | write | jump | readKeyboard | switchMemory
  | skipEqual | skipNotEqual | setA | setT | readT | convertToBase10 | convertByteToAscii | draw
deriving DecidableEq, Repr

/-- The three operand nibbles, as a termination reason names them (R91, R200). -/
inductive Field where
  | op1 | op2 | op3
deriving DecidableEq, Repr

/-- What the decoder extracts from a word (R91). -/
structure Fields where
  opcode : Nibble
  op1 : Nibble
  op2 : Nibble
  op3 : Nibble
  byteOperand : Byte
  addressOperand : Addr12
deriving DecidableEq, Repr

/-- The instructions (R93, R99), each with the fields its handler reads. -/
inductive Instr where
  | store (op1 : Nibble) (imm : Byte)
  | add (op1 op2 op3 : Nibble)
  | sub (op1 op2 op3 : Nibble)
  | read (op1 op2 op3 : Nibble)
  | write (op1 op2 op3 : Nibble)
  | jump (target : Addr12)
  | readKeyboard (op1 op2 op3 : Nibble)
  | switchMemory (op1 op2 op3 : Nibble)
  | skipEqual (op1 op2 op3 : Nibble)
  | skipNotEqual (op1 op2 op3 : Nibble)
  | setA (addr : Addr12)
  | setT (op1 op2 op3 : Nibble)
  | readT (op1 op2 op3 : Nibble)
  | convertToBase10 (op1 op2 op3 : Nibble)
  | convertByteToAscii (op1 op2 op3 : Nibble)
  | draw (op1 op2 op3 : Nibble)
deriving DecidableEq, Repr

/-- The opcode an instruction belongs to. -/
def Instr.opcode : Instr → Opcode
  | .store _ _ => .store
  | .add _ _ _ => .add
  | .sub _ _ _ => .sub
  | .read _ _ _ => .read
  | .write _ _ _ => .write
  | .jump _ => .jump
  | .readKeyboard _ _ _ => .readKeyboard
  | .switchMemory _ _ _ => .switchMemory
  | .skipEqual _ _ _ => .skipEqual
  | .skipNotEqual _ _ _ => .skipNotEqual
  | .setA _ => .setA
  | .setT _ _ _ => .setT
  | .readT _ _ _ => .readT
  | .convertToBase10 _ _ _ => .convertToBase10
  | .convertByteToAscii _ _ _ => .convertByteToAscii
  | .draw _ _ _ => .draw

/-- One row of spec/opcode_table.json: which words have the opcode, and which of those are valid (R99). -/
structure OpcodeRow where
  opcode : Opcode
  matchBits : Word
  mask : Word
  validMatch : Word
  validMask : Word
  validWords : Nat
deriving DecidableEq, Repr

/-- How a field of an opcode is used (R93). -/
inductive FieldUse where
  /-- R: a register index, valid 0-7. -/
  | register
  /-- Z: must be zero. -/
  | zero
  /-- L: a literal coordinate, valid 0-7. -/
  | literal
  /-- I, J or X: any value. -/
  | free
deriving DecidableEq, Repr

end Sys2Proof
end

