-- ==== Sys2Proof/Decode.lean ====
section
/-! DEFINITION. The instruction decoder (R90-R92), the opcode map (R99), and the encoder, both from the same
encodings. The decoder is total on words: every one of the 65536 decodes (R92). Only fewer than two bytes are
rejected, by name. -/

namespace Sys2Proof

/-- The opcode of a value of bits 15:12 (R99). All 16 values are assigned. -/
def Opcode.ofNibble (n : Nibble) : Opcode :=
  match (n.toFin : Fin 16) with
  | 0x0 => .store
  | 0x1 => .add
  | 0x2 => .sub
  | 0x3 => .read
  | 0x4 => .write
  | 0x5 => .jump
  | 0x6 => .readKeyboard
  | 0x7 => .switchMemory
  | 0x8 => .skipEqual
  | 0x9 => .skipNotEqual
  | 0xA => .setA
  | 0xB => .setT
  | 0xC => .readT
  | 0xD => .convertToBase10
  | 0xE => .convertByteToAscii
  | 0xF => .draw
  | ⟨_ + 16, h⟩ => absurd h (by omega)

/-- Bits 15:12 of an opcode's words (R99). -/
def Opcode.code : Opcode → Nibble
  | .store => 0x0
  | .add => 0x1
  | .sub => 0x2
  | .read => 0x3
  | .write => 0x4
  | .jump => 0x5
  | .readKeyboard => 0x6
  | .switchMemory => 0x7
  | .skipEqual => 0x8
  | .skipNotEqual => 0x9
  | .setA => 0xA
  | .setT => 0xB
  | .readT => 0xC
  | .convertToBase10 => 0xD
  | .convertByteToAscii => 0xE
  | .draw => 0xF

/-- The mnemonic, as spec/opcode_table.json spells it. -/
def Opcode.mnemonic : Opcode → String
  | .store => "STORE"
  | .add => "ADD"
  | .sub => "SUB"
  | .read => "READ"
  | .write => "WRITE"
  | .jump => "JUMP"
  | .readKeyboard => "READ_KEYBOARD"
  | .switchMemory => "SWITCH_MEMORY"
  | .skipEqual => "SKIP_EQUAL"
  | .skipNotEqual => "SKIP_NOT_EQUAL"
  | .setA => "SET_A"
  | .setT => "SET_T"
  | .readT => "READ_T"
  | .convertToBase10 => "CONVERT_TO_BASE_10"
  | .convertByteToAscii => "CONVERT_BYTE_TO_ASCII"
  | .draw => "DRAW"

/-- spec/opcode_table.json, row by row (R99). -/
def opcodeTable : List OpcodeRow := [
  ⟨.store, 0x0000, 0xF000, 0x0000, 0xF800, 2048⟩,
  ⟨.add, 0x1000, 0xF000, 0x1000, 0xF888, 512⟩,
  ⟨.sub, 0x2000, 0xF000, 0x2000, 0xF888, 512⟩,
  ⟨.read, 0x3000, 0xF000, 0x3000, 0xF8FF, 8⟩,
  ⟨.write, 0x4000, 0xF000, 0x4000, 0xF8FF, 8⟩,
  ⟨.jump, 0x5000, 0xF000, 0x5000, 0xF001, 2048⟩,
  ⟨.readKeyboard, 0x6000, 0xF000, 0x6000, 0xF8FF, 8⟩,
  ⟨.switchMemory, 0x7000, 0xF000, 0x7000, 0xFFFF, 1⟩,
  ⟨.skipEqual, 0x8000, 0xF000, 0x8000, 0xF88F, 64⟩,
  ⟨.skipNotEqual, 0x9000, 0xF000, 0x9000, 0xF88F, 64⟩,
  ⟨.setA, 0xA000, 0xF000, 0xA000, 0xF000, 4096⟩,
  ⟨.setT, 0xB000, 0xF000, 0xB000, 0xF00F, 256⟩,
  ⟨.readT, 0xC000, 0xF000, 0xC000, 0xF8FF, 8⟩,
  ⟨.convertToBase10, 0xD000, 0xF000, 0xD000, 0xF8FF, 8⟩,
  ⟨.convertByteToAscii, 0xE000, 0xF000, 0xE000, 0xF88F, 64⟩,
  ⟨.draw, 0xF000, 0xF000, 0xF000, 0xF888, 512⟩]

/-- The register name a 4-bit field gives, when it holds 0-7 (R32, R94). -/
def regOf (n : Nibble) : Option RegIx :=
  if h : n.toNat < 8 then some ⟨n.toNat, h⟩ else none

/-- The field that names a register (R103). -/
def nibOf (r : RegIx) : Nibble := BitVec.ofNat 4 r.val

/-- The field extraction of R91: pure, total, validating nothing (R92). -/
def fieldsOf (w : Word) : Fields where
  opcode := w.extractLsb' 12 4
  op1 := w.extractLsb' 8 4
  op2 := w.extractLsb' 4 4
  op3 := w.extractLsb' 0 4
  byteOperand := w.extractLsb' 0 8
  addressOperand := w.extractLsb' 0 12

/-- An operand nibble by its name (R91). -/
def Fields.operand (f : Fields) : Field → Nibble
  | .op1 => f.op1
  | .op2 => f.op2
  | .op3 => f.op3

/-- The dispatch on the opcode alone (R127). -/
def instrOf (f : Fields) : Instr :=
  match Opcode.ofNibble f.opcode with
  | .store => .store f.op1 f.byteOperand
  | .add => .add f.op1 f.op2 f.op3
  | .sub => .sub f.op1 f.op2 f.op3
  | .read => .read f.op1 f.op2 f.op3
  | .write => .write f.op1 f.op2 f.op3
  | .jump => .jump f.addressOperand
  | .readKeyboard => .readKeyboard f.op1 f.op2 f.op3
  | .switchMemory => .switchMemory f.op1 f.op2 f.op3
  | .skipEqual => .skipEqual f.op1 f.op2 f.op3
  | .skipNotEqual => .skipNotEqual f.op1 f.op2 f.op3
  | .setA => .setA f.addressOperand
  | .setT => .setT f.op1 f.op2 f.op3
  | .readT => .readT f.op1 f.op2 f.op3
  | .convertToBase10 => .convertToBase10 f.op1 f.op2 f.op3
  | .convertByteToAscii => .convertByteToAscii f.op1 f.op2 f.op3
  | .draw => .draw f.op1 f.op2 f.op3

/-- The instruction of a word. Every word has one (R92). -/
def decodeWord (w : Word) : Instr := instrOf (fieldsOf w)

/-- A word from its two bytes in ROM: the byte at the lower address is the high byte (R70). -/
def wordOfBytes (hi lo : Byte) : Word := hi ++ lo

/-- The byte of a word that stands at the lower address (R70). -/
def hiByte (w : Word) : Byte := w.extractLsb' 8 8

/-- The byte of a word that stands at the higher address (R70). -/
def loByte (w : Word) : Byte := w.extractLsb' 0 8

/-- Why bytes do not decode. -/
inductive DecodeError where
  /-- Fewer than two bytes: not an instruction word (R90). Raised by `decodeBytes` alone; a fetch always has two
  bytes or ends the run with BOUNDS_FETCH (R125). Safe: it admits nothing. Log 21. -/
  | truncated
deriving DecidableEq, Repr

/-- The first instruction of a byte sequence laid out as in ROM, and the bytes after it (R70, R90). -/
def decodeBytes : List Byte → Except DecodeError (Instr × List Byte)
  | hi :: lo :: rest => .ok (decodeWord (wordOfBytes hi lo), rest)
  | _ => .error .truncated

/-- The instruction the decoder reads from the table's bits: bit 0 is the least significant bit of the 16-bit word. -/
def decodeTableWord (nbits w : Nat) : Option Instr :=
  let word : Word := BitVec.ofNat 16 (w % 2 ^ nbits)
  match decodeBytes [hiByte word, loByte word] with
  | .ok (i, _) => some i
  | .error _ => none

/-- A word with an opcode and three operand nibbles (the layout of R91). -/
def packNibbles (o : Opcode) (op1 op2 op3 : Nibble) : Word := o.code ++ op1 ++ op2 ++ op3

/-- The word of an instruction (R99, R103). -/
def encode : Instr → Word
  | .store op1 imm => Opcode.store.code ++ op1 ++ imm
  | .add op1 op2 op3 => packNibbles .add op1 op2 op3
  | .sub op1 op2 op3 => packNibbles .sub op1 op2 op3
  | .read op1 op2 op3 => packNibbles .read op1 op2 op3
  | .write op1 op2 op3 => packNibbles .write op1 op2 op3
  | .jump target => Opcode.jump.code ++ target
  | .readKeyboard op1 op2 op3 => packNibbles .readKeyboard op1 op2 op3
  | .switchMemory op1 op2 op3 => packNibbles .switchMemory op1 op2 op3
  | .skipEqual op1 op2 op3 => packNibbles .skipEqual op1 op2 op3
  | .skipNotEqual op1 op2 op3 => packNibbles .skipNotEqual op1 op2 op3
  | .setA addr => Opcode.setA.code ++ addr
  | .setT op1 op2 op3 => packNibbles .setT op1 op2 op3
  | .readT op1 op2 op3 => packNibbles .readT op1 op2 op3
  | .convertToBase10 op1 op2 op3 => packNibbles .convertToBase10 op1 op2 op3
  | .convertByteToAscii op1 op2 op3 => packNibbles .convertByteToAscii op1 op2 op3
  | .draw op1 op2 op3 => packNibbles .draw op1 op2 op3

/-- The two bytes of an instruction as ROM holds them (R70). -/
def encodeBytes (i : Instr) : List Byte := [hiByte (encode i), loByte (encode i)]

/-- The opcode table's row of an opcode. -/
def Opcode.row (o : Opcode) : Option OpcodeRow := opcodeTable.find? (·.opcode = o)

end Sys2Proof
end

