-- ==== Sys2Proof/Config.lean ====
section
/-! DEFINITION. What a D5700 fixes for the life of a machine (R9, R11), and the one free value (R10). -/

namespace Sys2Proof

/-- The configuration parameters of R7 and R9, each with its default. It is a part of State, and no step and no host
action changes it. -/
structure Config where
  /-- RAM_SIZE, the byte count of RAM. -/
  ramSize : Nat := 4096
  /-- ROM_SIZE, the byte count of ROM. -/
  romSize : Nat := 4096
  /-- ROM_WRITABLE, constant for the life of a machine (D12). -/
  romWritable : Bool := false
  /-- TIMER_NOMINAL_HZ (R217). Informational: no rule depends on it, and nothing in the model reads it. -/
  timerNominalHz : Nat := 60
deriving DecidableEq, Repr

/-- The reference configuration: every parameter at its default (R9). -/
def Config.reference : Config := {}

/-- The legal ranges of R9: each memory holds 1 to 65536 bytes. -/
abbrev Config.Legal (c : Config) : Prop :=
  1 ≤ c.ramSize ∧ c.ramSize ≤ 65536 ∧ 1 ≤ c.romSize ∧ c.romSize ≤ 65536

/-- FREE VALUE: the byte the keyboard provider answers when none is settled in `State.keys` (R10, R175, I4).
It has no body: any byte may come back. Its argument counts the draws, so that two draws may differ. Log 3. -/
opaque Config.keyIn : Nat → Byte

/-- RENDER_LAYOUT (R11, D23): what separates the eight lines of `render`, and whether the last one is ended. -/
structure RenderLayout where
  separator : List Char
  endsLastLine : Bool
deriving DecidableEq, Repr

end Sys2Proof
end

