-- ==== Sys2Proof/Machine/State.lean ====
section
/-! DEFINITION. The machine's state as plain data (10_state.md), the termination reasons (R200), the interface's
fault and refusal types, and the state after reset (R49, R250). -/

namespace Sys2Proof.Machine

/-- The two memories a data address can name (R67, R74). -/
inductive Space where
  | ram | rom
deriving DecidableEq, Repr

/-- The termination reasons with the information each records (R200). -/
inductive Reason where
  /-- Check A: pc came back to 0 (R122). -/
  | haltPcZero
  /-- Check B: pc at or past the program's end (R123). -/
  | haltOutOfProgram (pc : Word)
  /-- A register field that holds 8-15 (R94). -/
  | fmtBadRegister (field : Field) (value : Nibble)
  /-- A must-be-zero field that holds 1-15 (R95). -/
  | fmtNonzeroField (field : Field) (value : Nibble)
  /-- JUMP to an odd address (R96). -/
  | fmtOddJumpTarget (target : Addr12)
  /-- CONVERT_BYTE_TO_ASCII of a value above 0xF (R178). -/
  | fmtDigitTooLarge (value : Byte)
  /-- DRAW of a character above 0x7F (R179). -/
  | fmtBadChar (value : Byte)
  /-- DRAW to a row of 8-15 (R97). -/
  | fmtBadRow (row : Nibble)
  /-- DRAW to a column of 8-15 (R97). -/
  | fmtBadCol (col : Nibble)
  /-- Fetch at an odd pc (R125). -/
  | fetchMisaligned (pc : Word)
  /-- Fetch past the end of ROM (R125). -/
  | boundsFetch (pc : Word)
  /-- Data write past the selected memory (R69). The address may be A + k above 0xFFFF (R76). -/
  | boundsData (space : Space) (address : Nat)
  /-- Data write to ROM when it is not writable (R69). -/
  | resourceRomReadOnly (address : Nat)
deriving DecidableEq, Repr

/-- RUN and RSN (R39): RSN exists exactly when RUN is Terminated, since it is meaningless otherwise. Log 6. -/
inductive Run where
  | running
  | terminated (rsn : Reason)
deriving DecidableEq, Repr

/-- The bytes of RAM or ROM that are not 0, by rising address. Log 14. -/
abbrev Memory := List Host.Cell

/-- Everything the spec gives the machine (10_state.md), and the keyboard provider's side of R175. -/
structure State where
  /-- RAM_SIZE, ROM_SIZE and ROM_WRITABLE (R9, R44), constant. -/
  cfg : Config
  /-- The general registers x[0] to x[7] (R31). -/
  x : Vector Byte 8
  /-- The program counter (R33). -/
  pc : Word
  /-- The timer T (R34). -/
  t : Byte
  /-- The address register A (R35). -/
  a : Word
  /-- The memory-select flag M: false RAM, true ROM (R36). -/
  m : Bool
  /-- RUN and RSN (R39). -/
  run : Run
  /-- ICOUNT, which never wraps (R40). -/
  icount : Nat
  /-- PLEN (R41). -/
  plen : Nat
  /-- RAM (R43). -/
  ram : Memory
  /-- ROM (R44). -/
  rom : Memory
  /-- DISP[0..63], row-major (R45). -/
  disp : Vector Byte 64
  /-- Outside the CORE: the keyboard provider's settled answers, oldest first (R225). Log 3. -/
  keys : List Byte
  /-- The model's own: how many free keyboard values have been drawn. Log 3. -/
  keyDraws : Nat
deriving DecidableEq, Repr

/-- A step that stops the model with a fault. It has no constructor: the spec gives every condition a next state,
Terminated with a reason (R18, R131, R133), so nothing raises one. Safe: a step is never cut short. Log 7. -/
inductive Fault where
deriving DecidableEq, Repr

/-- A step without a meaning. -/
inductive Refusal where
  /-- The interface's own: an instruction the model gives no meaning. No arm of exec raises it. Safe. -/
  | notModelled (mnemonic : String)
deriving DecidableEq, Repr

/-- What a step or a meaning answers. -/
abbrev Result := Host.Outcome State Fault Refusal

/-- The state after construction in the reference configuration (R250, the first column of R49). Log 1. -/
def State.reset : State where
  cfg := Config.reference
  x := Vector.replicate 8 0x00
  pc := 0x0000
  t := 0x00
  a := 0x0000
  m := false
  run := .running
  icount := 0
  plen := 0
  ram := []
  rom := []
  disp := Vector.replicate 64 0x20
  keys := []
  keyDraws := 0

end Sys2Proof.Machine
end

