-- ==== Sys2Proof/Machine/Ops.lean ====
section
/-! DEFINITION. The shared operations over memory, registers and the engine: the two byte memories (R61-R66), the
memory arbiter (R67-R69), fetch (R125), the termination checks (R122, R123), the sequencer (R130), a successful
step's commit (R132), and taking a termination (R131). -/

namespace Sys2Proof.Machine

/-! ### Byte memories -/

/-- What an unlisted address holds: 0, the content after construction, load and reset (R49, R64). -/
def Memory.blank : Byte := 0x00

/-- The byte at an index. -/
def Memory.read : Memory → Nat → Byte
  | [], _ => Memory.blank
  | (b, v) :: rest, a => if a = b then v else Memory.read rest a

/-- `v` put before `rest`, unless it is what an unlisted address holds. -/
def Memory.cons (a : Nat) (v : Byte) (rest : Memory) : Memory :=
  if v = Memory.blank then rest else (a, v) :: rest

/-- The memory with one byte stored, in the same canonical form. -/
def Memory.write : Memory → Nat → Byte → Memory
  | [], a, v => Memory.cons a v []
  | (b, u) :: rest, a, v =>
    if a < b then Memory.cons a v ((b, u) :: rest)
    else if a = b then Memory.cons a v rest
    else (b, u) :: Memory.write rest a v

/-- Addresses rise strictly from `lo` on, and no listed byte is the blank one. -/
def Memory.wfFrom : Nat → Memory → Bool
  | _, [] => true
  | lo, (a, v) :: rest => decide (lo ≤ a) && v != Memory.blank && Memory.wfFrom (a + 1) rest

/-- The canonical form. Two memories in it with the same bytes are the same list. -/
def Memory.wf (mem : Memory) : Bool := Memory.wfFrom 0 mem

/-- Every listed address is an index of a memory of `size` bytes (R61). -/
def Memory.within (mem : Memory) (size : Nat) : Bool := mem.all fun cell => cell.1 < size

/-- Consecutive bytes from index `a` on. -/
def Memory.ofBytes (a : Nat) : List Byte → Memory
  | [] => []
  | b :: rest => Memory.cons a b (Memory.ofBytes (a + 1) rest)

/-! ### Which memory -/

/-- The memory M selects (R36, R67). -/
def State.selected (s : State) : Space := if s.m then .rom else .ram

/-- RAM_SIZE or ROM_SIZE (R61). -/
def State.sizeOf (s : State) : Space → Nat
  | .ram => s.cfg.ramSize
  | .rom => s.cfg.romSize

/-- The contents of a memory. -/
def State.memOf (s : State) : Space → Memory
  | .ram => s.ram
  | .rom => s.rom

/-- Store one byte into a memory, without checks. PLEN never changes (R69). -/
def State.poke (s : State) (sp : Space) (a : Nat) (v : Byte) : State :=
  match sp with
  | .ram => { s with ram := Memory.write s.ram a v }
  | .rom => { s with rom := Memory.write s.rom a v }

/-! ### Registers and single-field updates -/

/-- x[r] (R31). No register is hardwired. -/
def State.reg (s : State) (r : RegIx) : Byte := s.x[r]

/-- x[r] <- v (R31). -/
def State.setReg (s : State) (r : RegIx) (v : Byte) : State := { s with x := s.x.set r.val v r.isLt }

/-- T <- v (R34). -/
def State.setTimer (s : State) (v : Byte) : State := { s with t := v }

/-- A <- v (R35). -/
def State.setAddr (s : State) (v : Word) : State := { s with a := v }

/-- M <- v (R36). -/
def State.setSelect (s : State) (v : Bool) : State := { s with m := v }

/-! ### The CPU-facing reads and writes -/

/-- A check that must hold, or the reason it raises (R18). -/
def require (ok : Bool) (q : Reason) : Except Reason Unit := if ok then .ok () else .error q

/-- `TolRam(a)` (R66). -/
def State.tolRam (s : State) (a : Nat) : Byte := if a < s.cfg.ramSize then Memory.read s.ram a else 0x00

/-- `TolRom(a)`: the extent is the loaded program's (R66, C1). Log 11. -/
def State.tolRom (s : State) (a : Nat) : Byte := if a < s.plen then Memory.read s.rom a else 0x00

/-- `DataRead(a)`, which never fails (R68). -/
def State.dataRead (s : State) (a : Nat) : Byte :=
  match s.selected with
  | .ram => s.tolRam a
  | .rom => s.tolRom a

/-- The read-only check of a data write, which comes before the bounds (R69, D5). Log 8. -/
def checkWritable (s : State) (a : Nat) : Except Reason Unit :=
  require (s.selected == .ram || s.cfg.romWritable) (.resourceRomReadOnly a)

/-- The bounds check of a data write (R69). -/
def checkBounds (s : State) (a : Nat) : Except Reason Unit :=
  require (decide (a < s.sizeOf s.selected)) (.boundsData s.selected a)

/-- The store of `DataWrite(a, v)`, once its checks have passed (R69, R129). -/
def State.dataStore (s : State) (a : Nat) (v : Byte) : State := s.poke s.selected a v

/-- `DataWrite(a, v)` (R69). -/
def dataWrite (s : State) (a : Nat) (v : Byte) : Except Reason State := do
  checkWritable s a
  checkBounds s a
  return s.dataStore a v

/-- The address `A + k`, computed without wrap (R76, R155). Log 13. -/
def State.dataAddr (s : State) (k : Nat) : Nat := s.a.toNat + k

/-! ### Fetch and the termination checks -/

/-- `RomFetch(a)` for an index in range: the raw ROM byte, with no PLEN limit (R65). Log 19. -/
def State.romByte (s : State) (a : Nat) : Byte := Memory.read s.rom a

/-- Stage 5: fetch of the big-endian word at pc, from ROM whatever M holds (R125, R70). -/
def fetch (s : State) : Except Reason Word := do
  require (s.pc.toNat % 2 == 0) (.fetchMisaligned s.pc)
  require (decide (s.pc.toNat + 1 < s.cfg.romSize)) (.boundsFetch s.pc)
  return wordOfBytes (s.romByte s.pc.toNat) (s.romByte (s.pc.toNat + 1))

/-- Stages 2 and 3: check A, then check B (R122, R123). -/
def terminationCheck (s : State) : Except Reason Unit := do
  require (!(decide (0 < s.icount) && s.pc == 0)) .haltPcZero
  require (decide (s.pc.toNat < s.plen)) (.haltOutOfProgram s.pc)

/-! ### The sequencer, the commit, and taking a termination -/

/-- The sequential next pc, mod 2^16 (R130). -/
def State.nextPc (s : State) : Word := s.pc + 2

/-- The next pc of a taken skip, mod 2^16 (R130). -/
def State.skipPc (s : State) : Word := s.pc + 4

/-- The next pc of a jump: the 12-bit address, zero-extended (R98, R130). -/
def jumpPc (target : Addr12) : Word := target.setWidth 16

/-- Stage 9: pc <- next_pc, ICOUNT <- ICOUNT + 1 (R132). -/
def State.commit (s : State) (nextPc : Word) : State := { s with pc := nextPc, icount := s.icount + 1 }

/-- Stage 8, `raise Q`: RUN <- Terminated, RSN <- Q, and nothing else (R18, R131, R206). The D5700's only form of
taking an exception: no mode, mask, saved pc or handler exists (R207), and nothing returns from it (R208). Log 7. -/
def State.terminate (s : State) (q : Reason) : State := { s with run := .terminated q }

/-- Stages 8 and 9 on a handler's answer: the written state and next_pc, or the reason it raised (R120, R129). -/
def conclude (s : State) : Except Reason (State × Word) → Result
  | .ok (t, nextPc) => .next (t.commit nextPc)
  | .error q => .next (s.terminate q)

end Sys2Proof.Machine
end

