-- ==== Sys2Proof/Machine/Flags.lean ====
section
/-! DEFINITION. The D5700 has no condition codes (R37). What comes nearest: the memory-select flag M, the comparison
inside the two skips, and the status a termination reports (R200-R205). -/

namespace Sys2Proof.Machine

/-- M <- 1 - M (R152). -/
def State.toggleSelect (s : State) : State := s.setSelect (!s.m)

/-- The comparison of the skips, on full unsigned bytes (R166, R167). Its result is not kept. -/
def State.regsEqual (s : State) (r1 r2 : RegIx) : Bool := s.reg r1 == s.reg r2

/-- The pc of a skip: pc + 4 when its condition holds, pc + 2 otherwise (R130). -/
def State.skipIf (s : State) (cond : Bool) : Word := if cond then s.skipPc else s.nextPc

/-- The four outcome categories (R201). -/
inductive Category where
  | normalTermination | formatError | boundsError | resourceError
deriving DecidableEq, Repr

/-- The category of a reason (R200, R202-R205). -/
def Reason.category : Reason → Category
  | .haltPcZero => .normalTermination
  | .haltOutOfProgram _ => .normalTermination
  | .fmtBadRegister _ _ => .formatError
  | .fmtNonzeroField _ _ => .formatError
  | .fmtOddJumpTarget _ => .formatError
  | .fmtDigitTooLarge _ => .formatError
  | .fmtBadChar _ => .formatError
  | .fmtBadRow _ => .formatError
  | .fmtBadCol _ => .formatError
  | .fetchMisaligned _ => .formatError
  | .boundsFetch _ => .boundsError
  | .boundsData _ _ => .boundsError
  | .resourceRomReadOnly _ => .resourceError

/-- The code of a reason (R200, the spec's own numbers). -/
def Reason.code : Reason → Nat
  | .haltPcZero => 1
  | .haltOutOfProgram _ => 2
  | .fmtBadRegister _ _ => 16
  | .fmtNonzeroField _ _ => 17
  | .fmtOddJumpTarget _ => 18
  | .fmtDigitTooLarge _ => 19
  | .fmtBadChar _ => 20
  | .fmtBadRow _ => 21
  | .fmtBadCol _ => 22
  | .fetchMisaligned _ => 23
  | .boundsFetch _ => 32
  | .boundsData _ _ => 33
  | .resourceRomReadOnly _ => 48

/-- The status message, which the spec gives for the two normal halts only (R205, N28). -/
def Reason.message : Reason → Option String
  | .haltPcZero => some "terminated: PC reached 0"
  | .haltOutOfProgram _ => some "terminated: out of bounds"
  | _ => none

/-- Whether a reason is an error end rather than a successful one (R134, R201). -/
def Reason.isError (q : Reason) : Bool := q.category != .normalTermination

end Sys2Proof.Machine
end

