-- ==== Sys2Proof/Machine/Operands.lean ====
section
/-! DEFINITION. The operand forms: the field checks of R94-R97, in the order a handler makes them (R211), and the
immediates (R98). -/

namespace Sys2Proof.Machine

/-- An R field: the register it names, or FMT_BAD_REGISTER (R94). -/
def checkReg (f : Field) (n : Nibble) : Except Reason RegIx :=
  match regOf n with
  | some r => .ok r
  | none => .error (.fmtBadRegister f n)

/-- A Z field: 0, or FMT_NONZERO_FIELD (R95). -/
def checkZero (f : Field) (n : Nibble) : Except Reason Unit := require (n == 0) (.fmtNonzeroField f n)

/-- The target of JUMP: even, or FMT_ODD_JUMP_TARGET (R96). -/
def checkEven (target : Addr12) : Except Reason Unit := require (target.toNat % 2 == 0) (.fmtOddJumpTarget target)

/-- The row of DRAW: a literal 0-7, or FMT_BAD_ROW (R97). -/
def checkRow (n : Nibble) : Except Reason Unit := require (decide (n.toNat ≤ 7)) (.fmtBadRow n)

/-- The column of DRAW: a literal 0-7, or FMT_BAD_COL (R97). -/
def checkCol (n : Nibble) : Except Reason Unit := require (decide (n.toNat ≤ 7)) (.fmtBadCol n)

/-- The operands of READ, WRITE, READ_KEYBOARD, READ_T and CONVERT_TO_BASE_10: a register, then two zeros (R93). -/
def checkRegZeroZero (op1 op2 op3 : Nibble) : Except Reason RegIx := do
  let r ← checkReg .op1 op1
  checkZero .op2 op2
  checkZero .op3 op3
  return r

/-- The operands of SKIP_EQUAL, SKIP_NOT_EQUAL and CONVERT_BYTE_TO_ASCII: two registers, then a zero (R93). -/
def checkRegRegZero (op1 op2 op3 : Nibble) : Except Reason (RegIx × RegIx) := do
  let r1 ← checkReg .op1 op1
  let r2 ← checkReg .op2 op2
  checkZero .op3 op3
  return (r1, r2)

/-- The operands of ADD and SUB: three registers (R93). -/
def checkRegRegReg (op1 op2 op3 : Nibble) : Except Reason (RegIx × RegIx × RegIx) := do
  let r1 ← checkReg .op1 op1
  let r2 ← checkReg .op2 op2
  let r3 ← checkReg .op3 op3
  return (r1, r2, r3)

/-- byte_operand: op2 and op3 together (R91, R98). -/
def byteOperand (op2 op3 : Nibble) : Byte := op2 ++ op3

end Sys2Proof.Machine
end

