-- ==== Sys2Proof/Machine/Control.lean ====
section
/-! DEFINITION. JUMP, SKIP_EQUAL and SKIP_NOT_EQUAL (43_control.md), the only control transfers (R168). -/

namespace Sys2Proof.Machine

/-- JUMP (R165): an even 12-bit byte address, not checked against PLEN or ROM_SIZE. -/
def execJump (target : Addr12) (s : State) : Result :=
  conclude s do
    checkEven target
    return (s, jumpPc target)

/-- SKIP_EQUAL (R166). The skipped word is not fetched or checked. -/
def execSkipEqual (op1 op2 op3 : Nibble) (s : State) : Result :=
  conclude s do
    let (a, b) ← checkRegRegZero op1 op2 op3
    return (s, s.skipIf (s.regsEqual a b))

/-- SKIP_NOT_EQUAL (R167). -/
def execSkipNotEqual (op1 op2 op3 : Nibble) (s : State) : Result :=
  conclude s do
    let (a, b) ← checkRegRegZero op1 op2 op3
    return (s, s.skipIf (!s.regsEqual a b))

end Sys2Proof.Machine
end

