-- ==== Sys2Proof/Machine/DataMemory.lean ====
section
/-! DEFINITION. READ, WRITE, SWITCH_MEMORY, SET_A and CONVERT_TO_BASE_10 (42_memory_ops.md). -/

namespace Sys2Proof.Machine

/-- READ (R150): the tolerant read at A, which never fails. -/
def execRead (op1 op2 op3 : Nibble) (s : State) : Result :=
  conclude s do
    let d ← checkRegZeroZero op1 op2 op3
    return (s.setReg d (s.dataRead (s.dataAddr 0)), s.nextPc)

/-- WRITE (R151): the strict write at A. -/
def execWrite (op1 op2 op3 : Nibble) (s : State) : Result :=
  conclude s do
    let r ← checkRegZeroZero op1 op2 op3
    let written ← dataWrite s (s.dataAddr 0) (s.reg r)
    return (written, s.nextPc)

/-- SWITCH_MEMORY (R152): all three nibbles must be 0. -/
def execSwitchMemory (op1 op2 op3 : Nibble) (s : State) : Result :=
  conclude s do
    checkZero .op1 op1
    checkZero .op2 op2
    checkZero .op3 op3
    return (s.toggleSelect, s.nextPc)

/-- SET_A (R153): every word is valid; bits 15:12 of A become 0. -/
def execSetA (addr : Addr12) (s : State) : Result :=
  conclude s (.ok (s.setAddr (addr.setWidth 16), s.nextPc))

/-- The three decimal digits of a byte: hundreds, tens, ones (R143, R154). -/
def decimalDigits (v : Byte) : Byte × Byte × Byte :=
  (BitVec.ofNat 8 (v.toNat / 100), BitVec.ofNat 8 (v.toNat / 10 % 10), BitVec.ofNat 8 (v.toNat % 10))

/-- CONVERT_TO_BASE_10 (R154): all checks of A, A+1 and A+2 come before any byte is written (D6). Log 9. -/
def execConvertToBase10 (op1 op2 op3 : Nibble) (s : State) : Result :=
  conclude s do
    let r ← checkRegZeroZero op1 op2 op3
    let (hundreds, tens, ones) := decimalDigits (s.reg r)
    checkWritable s (s.dataAddr 0)
    checkBounds s (s.dataAddr 0)
    checkBounds s (s.dataAddr 1)
    checkBounds s (s.dataAddr 2)
    let written := ((s.dataStore (s.dataAddr 0) hundreds).dataStore (s.dataAddr 1) tens).dataStore (s.dataAddr 2) ones
    return (written, s.nextPc)

end Sys2Proof.Machine
end

