-- ==== Sys2Proof/Machine/Display.lean ====
section
/-! DEFINITION. The 8 by 8 character display (R45, R221-R224). -/

namespace Sys2Proof.Machine

/-- The index of a display cell, row-major (R221). -/
def cellIndex (row col : Fin 8) : Fin 64 := ⟨row.val * 8 + col.val, by omega⟩

/-- `DisplayWrite(k, v)` (R221). -/
def State.displayWrite (s : State) (k : Fin 64) (v : Byte) : State := { s with disp := s.disp.set k.val v k.isLt }

/-- `clear()`: every cell 0x20 (R222). -/
def State.displayClear (s : State) : State := { s with disp := Vector.replicate 64 0x20 }

/-- The character a cell shows: itself if 33-126, else the placeholder (R224). -/
def glyph (v : Byte) : Char := if 33 ≤ v.toNat ∧ v.toNat ≤ 126 then Char.ofNat v.toNat else '#'

/-- Line `i` of `render()`: cells 8i to 8i+7 in column order (R224). -/
def State.renderLine (s : State) (i : Fin 8) : List Char :=
  (List.finRange 8).map fun j => glyph (s.disp[cellIndex i j])

/-- The eight lines of `render()`. It reads only DISP and changes nothing (R224). -/
def State.renderLines (s : State) : List (List Char) := (List.finRange 8).map s.renderLine

/-- The text of `render()` under a layout, which the spec leaves open (R11, R224). Log 18. -/
def State.renderText (s : State) (layout : RenderLayout) : List Char :=
  List.intercalate layout.separator s.renderLines ++ (if layout.endsLastLine then layout.separator else [])

end Sys2Proof.Machine
end

