-- ==== Sys2Proof/Machine/IoTimer.lean ====
section
/-! DEFINITION. READ_KEYBOARD, SET_T, READ_T, CONVERT_BYTE_TO_ASCII and DRAW (44_io_timer.md), the keyboard port
(R175, R225) and the timer tick (R215). The three opcodes the source intercepts go through the same step (R128). Log 17. -/

namespace Sys2Proof.Machine

/-- `KeyIn()`: the next settled answer, or a free byte when none is settled (R10, R175, R225). Log 3. -/
def State.keyIn (s : State) : Byte :=
  match s.keys with
  | k :: _ => k
  | [] => Config.keyIn s.keyDraws

/-- What asking the provider consumes: the settled answer, or one free draw (R73, R175). -/
def State.keyTaken (s : State) : State :=
  match s.keys with
  | _ :: rest => { s with keys := rest }
  | [] => { s with keyDraws := s.keyDraws + 1 }

/-- READ_KEYBOARD (R175): the provider is asked only after the field checks pass. -/
def execReadKeyboard (op1 op2 op3 : Nibble) (s : State) : Result :=
  conclude s do
    let d ← checkRegZeroZero op1 op2 op3
    return (s.keyTaken.setReg d s.keyIn, s.nextPc)

/-- SET_T (R176): op1 is ignored and not checked; the immediate is bits 7:0, whose low nibble must be 0 (C3). Log 10. -/
def execSetT (_op1 op2 op3 : Nibble) (s : State) : Result :=
  conclude s do
    checkZero .op3 op3
    return (s.setTimer (byteOperand op2 op3), s.nextPc)

/-- READ_T (R177): T is not changed. -/
def execReadT (op1 op2 op3 : Nibble) (s : State) : Result :=
  conclude s do
    let d ← checkRegZeroZero op1 op2 op3
    return (s.setReg d s.t, s.nextPc)

/-- The ASCII code of a hex digit 0-15, upper case (R178). -/
def asciiOfDigit (v : Byte) : Byte := if v.toNat ≤ 9 then 0x30 + v else 0x37 + v

/-- CONVERT_BYTE_TO_ASCII (R178): source op1, destination op2. -/
def execConvertByteToAscii (op1 op2 op3 : Nibble) (s : State) : Result :=
  conclude s do
    let (r, d) ← checkRegRegZero op1 op2 op3
    let v := s.reg r
    require (decide (v.toNat ≤ 0xF)) (.fmtDigitTooLarge v)
    return (s.setReg d (asciiOfDigit v), s.nextPc)

/-- The cell two literal nibbles in 0-7 name; the checks of DRAW come first. -/
def cellOf (row col : Nibble) : Fin 64 := cellIndex (Fin.ofNat 8 row.toNat) (Fin.ofNat 8 col.toNat)

/-- DRAW (R179): register, then character, then row, then column (R211). -/
def execDraw (op1 op2 op3 : Nibble) (s : State) : Result :=
  conclude s do
    let r ← checkReg .op1 op1
    let c := s.reg r
    require (decide (c.toNat ≤ 0x7F)) (.fmtBadChar c)
    checkRow op2
    checkCol op3
    return (s.displayWrite (cellOf op2 op3) c, s.nextPc)

/-- A timer tick: T one lower, never below 0, and nothing else (R215). It happens only between steps (R218). Log 4. -/
def State.tick (s : State) : State := if 0 < s.t.toNat then s.setTimer (s.t - 1) else s

end Sys2Proof.Machine
end

