-- ==== Sys2Proof/Machine/Register.lean ====
section
/-! DEFINITION. STORE, ADD and SUB (41_register_ops.md). Each checks, then writes, then gives next_pc (R129). -/

namespace Sys2Proof.Machine

/-- STORE (R140): op2 and op3 are the immediate's nibbles and are not checked. -/
def execStore (op1 : Nibble) (imm : Byte) (s : State) : Result :=
  conclude s do
    let d ← checkReg .op1 op1
    return (s.setReg d imm, s.nextPc)

/-- ADD (R141): modulo 256; both sources are read before the destination is written. -/
def execAdd (op1 op2 op3 : Nibble) (s : State) : Result :=
  conclude s do
    let (a, b, d) ← checkRegRegReg op1 op2 op3
    return (s.setReg d (s.reg a + s.reg b), s.nextPc)

/-- SUB (R142): op1 minus op2, modulo 256. -/
def execSub (op1 op2 op3 : Nibble) (s : State) : Result :=
  conclude s do
    let (a, b, d) ← checkRegRegReg op1 op2 op3
    return (s.setReg d (s.reg a - s.reg b), s.nextPc)

end Sys2Proof.Machine
end

