-- ==== Sys2Proof/Machine/Dispatch.lean ====
section
/-! DEFINITION. Stages 7 to 9 of a step: the dispatch on the opcode alone, one handler per instruction (R127). -/

namespace Sys2Proof.Machine

def exec (i : Instr) (s : State) : Host.Outcome State Fault Refusal :=
  match i with
  | .store op1 imm => Sys2Proof.Machine.execStore op1 imm s
  | .add op1 op2 op3 => Sys2Proof.Machine.execAdd op1 op2 op3 s
  | .sub op1 op2 op3 => Sys2Proof.Machine.execSub op1 op2 op3 s
  | .read op1 op2 op3 => Sys2Proof.Machine.execRead op1 op2 op3 s
  | .write op1 op2 op3 => Sys2Proof.Machine.execWrite op1 op2 op3 s
  | .jump target => Sys2Proof.Machine.execJump target s
  | .readKeyboard op1 op2 op3 => Sys2Proof.Machine.execReadKeyboard op1 op2 op3 s
  | .switchMemory op1 op2 op3 => Sys2Proof.Machine.execSwitchMemory op1 op2 op3 s
  | .skipEqual op1 op2 op3 => Sys2Proof.Machine.execSkipEqual op1 op2 op3 s
  | .skipNotEqual op1 op2 op3 => Sys2Proof.Machine.execSkipNotEqual op1 op2 op3 s
  | .setA addr => Sys2Proof.Machine.execSetA addr s
  | .setT op1 op2 op3 => Sys2Proof.Machine.execSetT op1 op2 op3 s
  | .readT op1 op2 op3 => Sys2Proof.Machine.execReadT op1 op2 op3 s
  | .convertToBase10 op1 op2 op3 => Sys2Proof.Machine.execConvertToBase10 op1 op2 op3 s
  | .convertByteToAscii op1 op2 op3 => Sys2Proof.Machine.execConvertByteToAscii op1 op2 op3 s
  | .draw op1 op2 op3 => Sys2Proof.Machine.execDraw op1 op2 op3 s

end Sys2Proof.Machine
end

