-- ==== Sys2Proof/Machine/Step.lean ====
section
/-! DEFINITION. One step (R120), and how the interface places a word where the next step fetches it. -/

namespace Sys2Proof.Machine

/-- `step()`, stages 1 to 9 in order (R120, R210). A terminated machine does nothing (R121). Timer ticks and host
actions are not part of it (R124, R226). Exec does stages 7 to 9 (log 23). -/
def step (s : State) : Host.Outcome State Fault Refusal :=
  match s.run with
  | .terminated _ => .next s
  | .running =>
    match terminationCheck s with
    | .error q => .next (s.terminate q)
    | .ok () =>
      match fetch s with
      | .error q => .next (s.terminate q)
      | .ok w => exec (decodeWord w) s

/-- Whether the fetch at pc can reach two ROM bytes (R125). -/
def State.fetchable (s : State) : Bool := s.pc.toNat % 2 == 0 && decide (s.pc.toNat + 1 < s.cfg.romSize)

/-- `s` with the word stored where the next step fetches, and with what that fetch needs: Running, a pc that can be
fetched from (its own, or else 0), a program that reaches past the word, and no check A at pc 0. It stands for a
program loaded from outside (R252). Log 15. -/
def State.withFetchWord (s : State) (nbits w : Nat) : State :=
  let word : Word := BitVec.ofNat 16 (w % 2 ^ nbits)
  let pc : Word := if s.fetchable then s.pc else 0
  { s with
    pc := pc
    run := .running
    icount := if pc = 0 then 0 else s.icount
    plen := max s.plen (pc.toNat + 2)
    rom := Memory.write (Memory.write s.rom pc.toNat (hiByte word)) (pc.toNat + 1) (loByte word) }

end Sys2Proof.Machine
end

