-- ==== Sys2Proof/WellFormed.lean ====
section
/-! DEFINITION. The valid instructions: those whose fields pass the checks of R93-R97. -/

namespace Sys2Proof

/-- The use each opcode makes of op1, op2 and op3 (the table of R93). SET_T's op3 is also the low nibble of its
immediate, and must be zero; the parity check of JUMP is not a use of a field (R96). -/
def Opcode.uses : Opcode → FieldUse × FieldUse × FieldUse
  | .store => (.register, .free, .free)
  | .add => (.register, .register, .register)
  | .sub => (.register, .register, .register)
  | .read => (.register, .zero, .zero)
  | .write => (.register, .zero, .zero)
  | .jump => (.free, .free, .free)
  | .readKeyboard => (.register, .zero, .zero)
  | .switchMemory => (.zero, .zero, .zero)
  | .skipEqual => (.register, .register, .zero)
  | .skipNotEqual => (.register, .register, .zero)
  | .setA => (.free, .free, .free)
  | .setT => (.free, .free, .zero)
  | .readT => (.register, .zero, .zero)
  | .convertToBase10 => (.register, .zero, .zero)
  | .convertByteToAscii => (.register, .register, .zero)
  | .draw => (.register, .literal, .literal)

/-- The use an opcode makes of one field (R93). -/
def Opcode.useOf (o : Opcode) : Field → FieldUse
  | .op1 => o.uses.1
  | .op2 => o.uses.2.1
  | .op3 => o.uses.2.2

/-- Whether a field's value is valid for its use (R94, R95, R97). -/
def FieldUse.valid : FieldUse → Nibble → Bool
  | .register, n => n.toNat ≤ 7
  | .zero, n => n == 0
  | .literal, n => n.toNat ≤ 7
  | .free, _ => true

/-- Three nibbles against the uses of an opcode. -/
def Opcode.fieldsValid (o : Opcode) (op1 op2 op3 : Nibble) : Bool :=
  o.uses.1.valid op1 && o.uses.2.1.valid op2 && o.uses.2.2.valid op3

/-- A valid instruction (R93-R97): one whose word passes the opcode table's `valid_mask` test. -/
def Instr.wellFormed : Instr → Bool
  | .store op1 _ => Opcode.store.uses.1.valid op1
  | .add op1 op2 op3 => Opcode.add.fieldsValid op1 op2 op3
  | .sub op1 op2 op3 => Opcode.sub.fieldsValid op1 op2 op3
  | .read op1 op2 op3 => Opcode.read.fieldsValid op1 op2 op3
  | .write op1 op2 op3 => Opcode.write.fieldsValid op1 op2 op3
  | .jump target => target.toNat % 2 == 0
  | .readKeyboard op1 op2 op3 => Opcode.readKeyboard.fieldsValid op1 op2 op3
  | .switchMemory op1 op2 op3 => Opcode.switchMemory.fieldsValid op1 op2 op3
  | .skipEqual op1 op2 op3 => Opcode.skipEqual.fieldsValid op1 op2 op3
  | .skipNotEqual op1 op2 op3 => Opcode.skipNotEqual.fieldsValid op1 op2 op3
  | .setA _ => true
  | .setT op1 op2 op3 => Opcode.setT.fieldsValid op1 op2 op3
  | .readT op1 op2 op3 => Opcode.readT.fieldsValid op1 op2 op3
  | .convertToBase10 op1 op2 op3 => Opcode.convertToBase10.fieldsValid op1 op2 op3
  | .convertByteToAscii op1 op2 op3 => Opcode.convertByteToAscii.fieldsValid op1 op2 op3
  | .draw op1 op2 op3 => Opcode.draw.fieldsValid op1 op2 op3

end Sys2Proof
end

