-- ==== Sys2Proof/Machine/Assembly.lean ====
section
/-! DEFINITION. The spec's assembly notation (R102, R103), over operands as data, and its text form. Text is written
but not parsed. Log 20. -/

namespace Sys2Proof.Machine

/-- An operand of an assembly line (R102). -/
inductive AsmOperand where
  /-- `r<n>`. -/
  | reg (n : Nat)
  /-- A number. -/
  | num (n : Nat)
deriving DecidableEq, Repr

/-- What a disassembler writes for a word: a line, or `.word 0xNNNN` for an invalid word (R103). -/
inductive AsmLine where
  | line (o : Opcode) (operands : List AsmOperand)
  | dotWord (w : Word)
deriving DecidableEq, Repr

/-- The instruction of an assembly line, if each operand fits its field. The assembler writes 0 in the nibble that
SET_T ignores (R103). -/
def assembleInstr (o : Opcode) (operands : List AsmOperand) : Option Instr :=
  match o, operands with
  | .store, [.reg d, .num imm] => if d < 16 ∧ imm < 256 then some (.store (.ofNat 4 d) (.ofNat 8 imm)) else none
  | .add, [.reg a, .reg b, .reg d] => if a < 16 ∧ b < 16 ∧ d < 16 then some (.add (.ofNat 4 a) (.ofNat 4 b) (.ofNat 4 d)) else none
  | .sub, [.reg a, .reg b, .reg d] => if a < 16 ∧ b < 16 ∧ d < 16 then some (.sub (.ofNat 4 a) (.ofNat 4 b) (.ofNat 4 d)) else none
  | .read, [.reg d] => if d < 16 then some (.read (.ofNat 4 d) 0 0) else none
  | .write, [.reg s] => if s < 16 then some (.write (.ofNat 4 s) 0 0) else none
  | .jump, [.num addr] => if addr < 4096 then some (.jump (.ofNat 12 addr)) else none
  | .readKeyboard, [.reg d] => if d < 16 then some (.readKeyboard (.ofNat 4 d) 0 0) else none
  | .switchMemory, [] => some (.switchMemory 0 0 0)
  | .skipEqual, [.reg a, .reg b] => if a < 16 ∧ b < 16 then some (.skipEqual (.ofNat 4 a) (.ofNat 4 b) 0) else none
  | .skipNotEqual, [.reg a, .reg b] => if a < 16 ∧ b < 16 then some (.skipNotEqual (.ofNat 4 a) (.ofNat 4 b) 0) else none
  | .setA, [.num addr] => if addr < 4096 then some (.setA (.ofNat 12 addr)) else none
  | .setT, [.num imm] => if imm < 256 then some (.setT 0 (.ofNat 4 (imm / 16)) (.ofNat 4 (imm % 16))) else none
  | .readT, [.reg d] => if d < 16 then some (.readT (.ofNat 4 d) 0 0) else none
  | .convertToBase10, [.reg s] => if s < 16 then some (.convertToBase10 (.ofNat 4 s) 0 0) else none
  | .convertByteToAscii, [.reg s, .reg d] => if s < 16 ∧ d < 16 then some (.convertByteToAscii (.ofNat 4 s) (.ofNat 4 d) 0) else none
  | .draw, [.reg s, .num row, .num col] => if s < 16 ∧ row < 16 ∧ col < 16 then some (.draw (.ofNat 4 s) (.ofNat 4 row) (.ofNat 4 col)) else none
  | _, _ => none

/-- The assembler: it refuses any operand outside its valid range (R103). -/
def assemble : AsmLine → Option Word
  | .line o operands => (assembleInstr o operands).bind fun i => if i.wellFormed then some (encode i) else none
  | .dotWord w => some w

/-- The operands of an instruction in the order op1, op2, op3 (R102, R103). -/
def operandsOf : Instr → List AsmOperand
  | .store op1 imm => [.reg op1.toNat, .num imm.toNat]
  | .add op1 op2 op3 => [.reg op1.toNat, .reg op2.toNat, .reg op3.toNat]
  | .sub op1 op2 op3 => [.reg op1.toNat, .reg op2.toNat, .reg op3.toNat]
  | .read op1 _ _ => [.reg op1.toNat]
  | .write op1 _ _ => [.reg op1.toNat]
  | .jump target => [.num target.toNat]
  | .readKeyboard op1 _ _ => [.reg op1.toNat]
  | .switchMemory _ _ _ => []
  | .skipEqual op1 op2 _ => [.reg op1.toNat, .reg op2.toNat]
  | .skipNotEqual op1 op2 _ => [.reg op1.toNat, .reg op2.toNat]
  | .setA addr => [.num addr.toNat]
  | .setT _ op2 op3 => [.num (op2.toNat * 16 + op3.toNat)]
  | .readT op1 _ _ => [.reg op1.toNat]
  | .convertToBase10 op1 _ _ => [.reg op1.toNat]
  | .convertByteToAscii op1 op2 _ => [.reg op1.toNat, .reg op2.toNat]
  | .draw op1 op2 op3 => [.reg op1.toNat, .num op2.toNat, .num op3.toNat]

/-- The disassembler (R103). -/
def disassemble (w : Word) : AsmLine :=
  let i := decodeWord w
  if i.wellFormed then .line i.opcode (operandsOf i) else .dotWord w

/-- A hexadecimal digit, upper case. -/
def hexDigit (n : Nat) : Char := if n < 10 then Char.ofNat (0x30 + n) else Char.ofNat (0x37 + n)

/-- A number below 0x1000 in hexadecimal, with no leading zeros. -/
def hexText (n : Nat) : String :=
  "0x" ++ String.ofList ((if n < 0x10 then [n] else if n < 0x100 then [n / 16, n % 16] else [n / 256, n / 16 % 16, n % 16]).map hexDigit)

/-- The text of an operand (R102): registers as r0 to r7, numbers in hexadecimal. -/
def AsmOperand.text : AsmOperand → String
  | .reg n => "r" ++ String.ofList [hexDigit n]
  | .num n => hexText n

/-- The text of an assembly line (R102, R103). -/
def AsmLine.text : AsmLine → String
  | .line o [] => o.mnemonic
  | .line o operands => o.mnemonic ++ " " ++ ", ".intercalate (operands.map AsmOperand.text)
  | .dotWord w => ".word 0x" ++ String.ofList ([w.toNat / 4096, w.toNat / 256 % 16, w.toNat / 16 % 16, w.toNat % 16].map hexDigit)

end Sys2Proof.Machine
end

