-- ==== Sys2Proof/Machine/HostPort.lean ====
section
/-! DEFINITION. The host interface (60_exceptions.md section 7, 70_reset_and_hazards.md section 1): construction, load,
reset, the accessors, the debug paths, the timer tick, run with a bound, and the interleaving of steps with host
actions. The host acts only between steps (R226). A rejected action changes no state (R228, R229, R251). -/

namespace Sys2Proof.Machine

/-- A usage error returned to the host (R228, R229). It never terminates the program, and changes no state. Log 5. -/
inductive UsageError where
  /-- load of more than ROM_SIZE bytes (R251). -/
  | tooLarge
  /-- A direct access outside the memory, or a value outside 0-255 (R62, R63). -/
  | outOfRange
  /-- A direct write to ROM that is not writable (R63). -/
  | readOnly
  /-- A setter's or getter's value or register index out of range (R228). -/
  | rejected
  /-- A display character outside 0-0x7F (R222, R223). -/
  | invalidChar
  /-- A display row, column or cell that does not exist (R223). -/
  | outOfBounds
deriving DecidableEq, Repr

/-! ### Construction, load and reset -/

/-- Construction with given parameters: the first column of R49 (R250). -/
def State.construct (cfg : Config) : State := { State.reset with cfg := cfg }

/-- The register file's own reset: x, pc, T, A zeroed and M cleared (R255). -/
def State.regFileReset (s : State) : State :=
  { s with x := Vector.replicate 8 0x00, pc := 0x0000, t := 0x00, a := 0x0000, m := false }

/-- The host's `reset()`: ROM, PLEN and ROM_WRITABLE stay, and so do the keyboard provider's answers (R254). -/
def State.machineReset (s : State) : State :=
  { s.regFileReset.displayClear with ram := [], run := .running, icount := 0 }

/-- `load(bytes)` (R251, R252). -/
def State.load (s : State) (bytes : List Byte) : Except UsageError State :=
  if s.cfg.romSize < bytes.length then .error .tooLarge
  else .ok { s.machineReset with rom := Memory.ofBytes 0 bytes, plen := bytes.length }

/-! ### The accessors (R228) -/

/-- A register index 0-7. -/
def regIndex (i : Int) : Option RegIx :=
  if h : 0 ≤ i ∧ i ≤ 7 then some ⟨i.toNat, by omega⟩ else none

def State.getRegister (s : State) (i : Int) : Except UsageError Byte :=
  match regIndex i with
  | some r => .ok (s.reg r)
  | none => .error .rejected

def State.setRegister (s : State) (i v : Int) : Except UsageError State :=
  match regIndex i with
  | some r => if 0 ≤ v ∧ v ≤ 255 then .ok (s.setReg r (BitVec.ofInt 8 v)) else .error .rejected
  | none => .error .rejected

def State.getPc (s : State) : Word := s.pc

/-- Set pc: even, and in 0-0xFFFF. -/
def State.setPc (s : State) (v : Int) : Except UsageError State :=
  if 0 ≤ v ∧ v ≤ 0xFFFF ∧ v % 2 = 0 then .ok { s with pc := BitVec.ofInt 16 v } else .error .rejected

def State.getTimer (s : State) : Byte := s.t

def State.setTimerTo (s : State) (v : Int) : Except UsageError State :=
  if 0 ≤ v ∧ v ≤ 255 then .ok (s.setTimer (BitVec.ofInt 8 v)) else .error .rejected

def State.getAddress (s : State) : Word := s.a

def State.setAddress (s : State) (v : Int) : Except UsageError State :=
  if 0 ≤ v ∧ v ≤ 0xFFFF then .ok (s.setAddr (BitVec.ofInt 16 v)) else .error .rejected

def State.getSelect (s : State) : Bool := s.m

/-! ### Direct memory access: the strict primitives (R62, R63, R229) -/

/-- `MemRead(space, a, 1)`: no PLEN limit, and M plays no part. -/
def State.strictRead (s : State) (sp : Space) (a : Int) : Except UsageError Byte :=
  if 0 ≤ a ∧ a < s.sizeOf sp then .ok (Memory.read (s.memOf sp) a.toNat) else .error .outOfRange

/-- `MemWrite(space, a, 1, v)`: ReadOnly is reported before OutOfRange (D5). -/
def State.strictWrite (s : State) (sp : Space) (a v : Int) : Except UsageError State :=
  if sp = .rom ∧ s.cfg.romWritable = false then .error .readOnly
  else if 0 ≤ a ∧ a < s.sizeOf sp ∧ 0 ≤ v ∧ v ≤ 255 then .ok (s.poke sp a.toNat (BitVec.ofInt 8 v))
  else .error .outOfRange

/-! ### The display's host paths (R222, R223) -/

/-- The display's own `draw(ascii, row, col)`: InvalidChar before OutOfBounds. -/
def State.displayDraw (s : State) (ascii row col : Int) : Except UsageError State :=
  if ¬ (0 ≤ ascii ∧ ascii ≤ 0x7F) then .error .invalidChar
  else
    match regIndex row, regIndex col with
    | some r, some c => .ok (s.displayWrite (cellIndex r c) (BitVec.ofInt 8 ascii))
    | _, _ => .error .outOfBounds

/-- The debug load-pattern path: a value 0-0x7F into one cell (R222, D30). DESIGN CHOICE: the spec says only that a
write out of its ranges is a usage error with no change (R232); that a bad value reports InvalidChar and a bad cell
OutOfBounds, the value first, as the display's own `draw` does (R223), is the model's. Log 26. -/
def State.displayPoke (s : State) (k v : Int) : Except UsageError State :=
  if ¬ (0 ≤ v ∧ v ≤ 0x7F) then .error .invalidChar
  else if h : 0 ≤ k ∧ k < 64 then .ok (s.displayWrite ⟨k.toNat, by omega⟩ (BitVec.ofInt 8 v))
  else .error .outOfBounds

/-! ### Host actions and events -/

/-- What the outside world may do to the machine between two steps (R226, R232). -/
inductive HostAction where
  /-- A timer tick (R218). -/
  | tick
  | load (bytes : List Byte)
  /-- The machine reset (R254). -/
  | reset
  | setRegister (i v : Int)
  | setPc (v : Int)
  | setTimer (v : Int)
  | setAddress (v : Int)
  | setSelect (v : Bool)
  /-- A direct write to RAM or ROM (R229). -/
  | writeMemory (sp : Space) (a v : Int)
  | displayClear
  | displayDraw (ascii row col : Int)
  | displayPoke (k v : Int)
  /-- The keyboard provider settles one more answer (R225). -/
  | queueKey (k : Byte)
deriving DecidableEq, Repr

/-- A host action: the new state, or the usage error of a rejected one. -/
def HostAction.attempt (act : HostAction) (s : State) : Except UsageError State :=
  match act with
  | .tick => .ok s.tick
  | .load bytes => s.load bytes
  | .reset => .ok s.machineReset
  | .setRegister i v => s.setRegister i v
  | .setPc v => s.setPc v
  | .setTimer v => s.setTimerTo v
  | .setAddress v => s.setAddress v
  | .setSelect v => .ok (s.setSelect v)
  | .writeMemory sp a v => s.strictWrite sp a v
  | .displayClear => .ok s.displayClear
  | .displayDraw ascii row col => s.displayDraw ascii row col
  | .displayPoke k v => s.displayPoke k v
  | .queueKey k => .ok { s with keys := s.keys ++ [k] }

/-- The state after a host action: a rejected one changes nothing (R228, R229, R251). -/
def HostAction.apply (act : HostAction) (s : State) : State :=
  match act.attempt s with
  | .ok t => t
  | .error _ => s

/-- What can happen to the machine: one step, or one host action between steps (R226). -/
inductive Event where
  | step
  | host (act : HostAction)
deriving DecidableEq, Repr

/-- One event. -/
def runEvent (e : Event) (s : State) : Result :=
  match e with
  | .step => step s
  | .host act => .next (act.apply s)

/-- A sequence of events: every interleaving of steps with ticks and other host actions is one (R218, R226). Log 4. -/
def runEvents : List Event → State → Result
  | [], s => .next s
  | e :: rest, s =>
    match runEvent e s with
    | .next t => runEvents rest t
    | .fault r => .fault r
    | .refused r => .refused r

/-! ### run-to-completion with a bound (R231) -/

/-- What a bounded run reports. BOUND_REACHED is no termination, and changes no state. -/
inductive RunReport where
  | terminated (rsn : Reason)
  | boundReached
deriving DecidableEq, Repr

/-- Repeat `step()` until a step returns Terminated, or `n` instructions have completed with RUN still Running. Each
step that leaves RUN Running has completed one instruction (R132), so only successful steps count. Log 22.

The second argument is the tick schedule (R10, R218): its first number says how many ticks fall just before the first
step, the next number how many fall between that step and the second, and so on; none where the list has ended. That
ticks may fall between the steps of one bounded run, and only there, is DEDUCED from R218, R226 and R231. Log 22. -/
def runBound : Nat → List Nat → State → Host.Outcome (RunReport × State) Fault Refusal
  | 0, _, s =>
    match s.run with
    | .running => .next (.boundReached, s)
    | .terminated q => .next (.terminated q, s)
  | n + 1, ticks, s =>
    match step (State.tick^[ticks.headD 0] s) with
    | .next t =>
      match t.run with
      | .running => runBound n ticks.tail t
      | .terminated q => .next (.terminated q, t)
    | .fault r => .fault r
    | .refused r => .refused r

/-- The events of `n` steps under a tick schedule, as `runBound` reads it. -/
def tickedSteps : Nat → List Nat → List Event
  | 0, _ => []
  | n + 1, ticks => List.replicate (ticks.headD 0) (.host .tick) ++ .step :: tickedSteps n ticks.tail

end Sys2Proof.Machine
end

