-- ==== Sys2Proof/Safety.lean ====
section
/-! DEFINITION. What claims are stated in: the invariant of every legal state (R48, R41, R61), how a
run ends (R134), and the order of the field checks (R211). -/

namespace Sys2Proof.Machine

/-- The invariants of R48, with PLEN ≤ ROM_SIZE (R41), the sizes of the memories (R61) and their canonical form. -/
abbrev State.Inv (s : State) : Prop :=
  s.cfg.Legal ∧ s.pc.toNat % 2 = 0 ∧ s.plen ≤ s.cfg.romSize ∧
  Memory.wf s.ram = true ∧ Memory.within s.ram s.cfg.ramSize = true ∧
  Memory.wf s.rom = true ∧ Memory.within s.rom s.cfg.romSize = true ∧
  ∀ k : Fin 64, (s.disp[k]).toNat ≤ 0x7F

/-- The run has ended successfully: the program halted (R134, R205). -/
def State.endedWell (s : State) : Bool :=
  match s.run with
  | .terminated q => !q.isError
  | .running => false

/-- The run has ended with an error (R134, R201). -/
def State.endedInError (s : State) : Bool :=
  match s.run with
  | .terminated q => q.isError
  | .running => false

end Sys2Proof.Machine

namespace Sys2Proof

open Sys2Proof.Machine

/-- The complaint about one field by its use: a register field of 8-15 (R94), a must-be-zero field of 1-15 (R95). A
coordinate is checked later, after DRAW's character (R211). -/
def FieldUse.complaint (f : Field) (n : Nibble) : FieldUse → Option Reason
  | .register => if n.toNat ≤ 7 then none else some (.fmtBadRegister f n)
  | .zero => if n = 0 then none else some (.fmtNonzeroField f n)
  | .literal => none
  | .free => none

/-- The fields op1, op2, op3 of an instruction, read from its word (R91). -/
def Instr.nibbles (i : Instr) : Nibble × Nibble × Nibble :=
  ((fieldsOf (encode i)).op1, (fieldsOf (encode i)).op2, (fieldsOf (encode i)).op3)

/-- The first field check of an instruction that fails, in the order op1, op2, op3, with JUMP's even-target
constraint (R211 (a)), read off the table of R93. -/
def Instr.firstBadField (i : Instr) : Option Reason :=
  match i with
  | .jump target => if target.toNat % 2 = 0 then none else some (.fmtOddJumpTarget target)
  | _ =>
    (FieldUse.complaint .op1 (Instr.nibbles i).1 i.opcode.uses.1).or
      ((FieldUse.complaint .op2 (Instr.nibbles i).2.1 i.opcode.uses.2.1).or
        (FieldUse.complaint .op3 (Instr.nibbles i).2.2 i.opcode.uses.2.2))

end Sys2Proof
end

