-- ==== Sys2Proof/Certificates/Slice0/Obligations.lean ====
section
/-! DEFINITION. The statements about the D5700 model. Each says which rule of spec/ it formalises. A statement about
`exec` holds whatever RUN is: stages 7 to 9 alone (log 23). A next state written out in full is also the frame: every
field that is not named is as before. -/

open Sys2Proof
open Sys2Proof.Machine

/-! ### Encoding -/

/-- R91, R92, R99: decoding what the encoder writes gives the instruction back, valid or not, with every operand, and
leaves the bytes after it; and encoding what the decoder reads gives the word back, so no bit of a word is dropped. -/
def Obligations.DecodeAndEncodeAgree : Prop :=
  (∀ i : Instr, decodeWord (encode i) = i ∧
    ∀ rest : List Byte, decodeBytes (encodeBytes i ++ rest) = .ok (i, rest)) ∧
  ∀ w : Word, encode (decodeWord w) = w

/-- R91: the six fields of a word, as numbers. -/
def Obligations.FieldsAreBitsOfTheWord : Prop :=
  ∀ w : Word,
    (fieldsOf w).opcode.toNat = w.toNat / 4096 ∧
    (fieldsOf w).op1.toNat = w.toNat / 256 % 16 ∧
    (fieldsOf w).op2.toNat = w.toNat / 16 % 16 ∧
    (fieldsOf w).op3.toNat = w.toNat % 16 ∧
    (fieldsOf w).byteOperand.toNat = w.toNat % 256 ∧
    (fieldsOf w).byteOperand.toNat = (fieldsOf w).op2.toNat * 16 + (fieldsOf w).op3.toNat ∧
    (fieldsOf w).addressOperand.toNat = w.toNat % 4096 ∧
    (fieldsOf w).addressOperand.toNat = (fieldsOf w).op1.toNat * 256 + (fieldsOf w).byteOperand.toNat

/-- R127: the dispatch is on the opcode alone, to exactly one handler each. -/
def Obligations.DispatchIsOnTheOpcodeAlone : Prop :=
  ∀ (w : Word) (s : State),
    ((fieldsOf w).opcode = 0x0 → exec (decodeWord w) s = execStore (fieldsOf w).op1 (fieldsOf w).byteOperand s) ∧
    ((fieldsOf w).opcode = 0x1 → exec (decodeWord w) s = execAdd (fieldsOf w).op1 (fieldsOf w).op2 (fieldsOf w).op3 s) ∧
    ((fieldsOf w).opcode = 0x2 → exec (decodeWord w) s = execSub (fieldsOf w).op1 (fieldsOf w).op2 (fieldsOf w).op3 s) ∧
    ((fieldsOf w).opcode = 0x3 → exec (decodeWord w) s = execRead (fieldsOf w).op1 (fieldsOf w).op2 (fieldsOf w).op3 s) ∧
    ((fieldsOf w).opcode = 0x4 → exec (decodeWord w) s = execWrite (fieldsOf w).op1 (fieldsOf w).op2 (fieldsOf w).op3 s) ∧
    ((fieldsOf w).opcode = 0x5 → exec (decodeWord w) s = execJump (fieldsOf w).addressOperand s) ∧
    ((fieldsOf w).opcode = 0x6 → exec (decodeWord w) s = execReadKeyboard (fieldsOf w).op1 (fieldsOf w).op2 (fieldsOf w).op3 s) ∧
    ((fieldsOf w).opcode = 0x7 → exec (decodeWord w) s = execSwitchMemory (fieldsOf w).op1 (fieldsOf w).op2 (fieldsOf w).op3 s) ∧
    ((fieldsOf w).opcode = 0x8 → exec (decodeWord w) s = execSkipEqual (fieldsOf w).op1 (fieldsOf w).op2 (fieldsOf w).op3 s) ∧
    ((fieldsOf w).opcode = 0x9 → exec (decodeWord w) s = execSkipNotEqual (fieldsOf w).op1 (fieldsOf w).op2 (fieldsOf w).op3 s) ∧
    ((fieldsOf w).opcode = 0xA → exec (decodeWord w) s = execSetA (fieldsOf w).addressOperand s) ∧
    ((fieldsOf w).opcode = 0xB → exec (decodeWord w) s = execSetT (fieldsOf w).op1 (fieldsOf w).op2 (fieldsOf w).op3 s) ∧
    ((fieldsOf w).opcode = 0xC → exec (decodeWord w) s = execReadT (fieldsOf w).op1 (fieldsOf w).op2 (fieldsOf w).op3 s) ∧
    ((fieldsOf w).opcode = 0xD → exec (decodeWord w) s = execConvertToBase10 (fieldsOf w).op1 (fieldsOf w).op2 (fieldsOf w).op3 s) ∧
    ((fieldsOf w).opcode = 0xE → exec (decodeWord w) s = execConvertByteToAscii (fieldsOf w).op1 (fieldsOf w).op2 (fieldsOf w).op3 s) ∧
    ((fieldsOf w).opcode = 0xF → exec (decodeWord w) s = execDraw (fieldsOf w).op1 (fieldsOf w).op2 (fieldsOf w).op3 s)

/-- R99, R103: some words of the spec, written out, and the instructions they stand for. -/
def Obligations.WrittenWordsDecode : Prop :=
  decodeWord 0b0000_0000_0010_1010 = .store 0 42 ∧
  decodeWord 0b0001_0000_0001_0010 = .add 0 1 2 ∧
  decodeWord 0b0101_0010_0000_0001 = .jump 0x201 ∧
  decodeWord 0b1011_0011_0000_0000 = .setT 3 0 0 ∧
  decodeWord 0b1110_0000_0001_0000 = .convertByteToAscii 0 1 0 ∧
  decodeWord 0b1111_0011_0010_0111 = .draw 3 2 7

/-- R99: a word has its opcode row's match and mask bits, and its instruction is valid exactly when the word passes
the row's `valid_match` and `valid_mask` test. -/
def Obligations.ValidWordsPassTheOpcodeTable : Prop :=
  ∀ w : Word, ∃ row ∈ opcodeTable, row.opcode = (decodeWord w).opcode ∧
    w &&& row.mask = row.matchBits ∧
    ((decodeWord w).wellFormed = true ↔ w &&& row.validMask = row.validMatch)

/-! ### Field checks -/

/-- R100: executing an invalid word is fatal with a FormatError code, and nothing else is written. -/
def Obligations.InvalidInstructionsAreFatalFormatErrors : Prop :=
  ∀ (i : Instr) (s : State), i.wellFormed = false →
    ∃ q : Reason, q.category = .formatError ∧ exec i s = .next { s with run := .terminated q }

/-- R211 (a), with R94, R95 and R96: the first field that fails its R, Z or even-target constraint, in the order op1,
op2, op3, gives the reason. -/
def Obligations.FirstBadFieldGivesTheReason : Prop :=
  ∀ (i : Instr) (s : State) (q : Reason), i.firstBadField = some q →
    exec i s = .next { s with run := .terminated q }

/-! ### Register instructions -/

/-- R140: STORE. -/
def Obligations.StoreLoadsItsImmediate : Prop :=
  (∀ (op1 : Nibble) (imm : Byte), decodeWord (0x0#4 ++ op1 ++ imm) = .store op1 imm) ∧
  (∀ (d : RegIx) (imm : Byte) (s : State), exec (.store (nibOf d) imm) s =
    .next { s with x := s.x.set d imm, pc := s.pc + 2, icount := s.icount + 1 }) ∧
  (∀ (op1 : Nibble) (imm : Byte) (s : State), 7 < op1.toNat →
    exec (.store op1 imm) s = .next { s with run := .terminated (.fmtBadRegister .op1 op1) })

/-- R141: ADD, as numbers below 256. -/
def Obligations.AddIsModulo256 : Prop :=
  (∀ op1 op2 op3 : Nibble, decodeWord (0x1#4 ++ op1 ++ op2 ++ op3) = .add op1 op2 op3) ∧
  (∀ (a b d : RegIx) (s : State), exec (.add (nibOf a) (nibOf b) (nibOf d)) s =
    .next { s with
      x := s.x.set d (BitVec.ofNat 8 ((s.x[a].toNat + s.x[b].toNat) % 256)), pc := s.pc + 2, icount := s.icount + 1 }) ∧
  (∀ (op1 op2 op3 : Nibble) (s : State), 7 < op1.toNat →
    exec (.add op1 op2 op3) s = .next { s with run := .terminated (.fmtBadRegister .op1 op1) }) ∧
  (∀ (a : RegIx) (op2 op3 : Nibble) (s : State), 7 < op2.toNat →
    exec (.add (nibOf a) op2 op3) s = .next { s with run := .terminated (.fmtBadRegister .op2 op2) }) ∧
  (∀ (a b : RegIx) (op3 : Nibble) (s : State), 7 < op3.toNat →
    exec (.add (nibOf a) (nibOf b) op3) s = .next { s with run := .terminated (.fmtBadRegister .op3 op3) })

/-- R142: SUB, op1 minus op2, as numbers below 256. -/
def Obligations.SubIsModulo256 : Prop :=
  (∀ op1 op2 op3 : Nibble, decodeWord (0x2#4 ++ op1 ++ op2 ++ op3) = .sub op1 op2 op3) ∧
  (∀ (a b d : RegIx) (s : State), exec (.sub (nibOf a) (nibOf b) (nibOf d)) s =
    .next { s with
      x := s.x.set d (BitVec.ofNat 8 ((s.x[a].toNat + 256 - s.x[b].toNat) % 256)), pc := s.pc + 2, icount := s.icount + 1 }) ∧
  (∀ (op1 op2 op3 : Nibble) (s : State), 7 < op1.toNat →
    exec (.sub op1 op2 op3) s = .next { s with run := .terminated (.fmtBadRegister .op1 op1) }) ∧
  (∀ (a : RegIx) (op2 op3 : Nibble) (s : State), 7 < op2.toNat →
    exec (.sub (nibOf a) op2 op3) s = .next { s with run := .terminated (.fmtBadRegister .op2 op2) }) ∧
  (∀ (a b : RegIx) (op3 : Nibble) (s : State), 7 < op3.toNat →
    exec (.sub (nibOf a) (nibOf b) op3) s = .next { s with run := .terminated (.fmtBadRegister .op3 op3) })

/-! ### Memory instructions -/

/-- R150: READ, the tolerant read at A of the memory M selects. -/
def Obligations.ReadLoadsTheSelectedByte : Prop :=
  (∀ op1 op2 op3 : Nibble, decodeWord (0x3#4 ++ op1 ++ op2 ++ op3) = .read op1 op2 op3) ∧
  (∀ (d : RegIx) (s : State), exec (.read (nibOf d) 0 0) s =
    .next { s with
      x := s.x.set d
        (if s.m then (if s.a.toNat < s.plen then Memory.read s.rom s.a.toNat else 0)
         else (if s.a.toNat < s.cfg.ramSize then Memory.read s.ram s.a.toNat else 0)),
      pc := s.pc + 2, icount := s.icount + 1 }) ∧
  (∀ (op1 op2 op3 : Nibble) (s : State), 7 < op1.toNat →
    exec (.read op1 op2 op3) s = .next { s with run := .terminated (.fmtBadRegister .op1 op1) }) ∧
  (∀ (d : RegIx) (op2 op3 : Nibble) (s : State), op2 ≠ 0 →
    exec (.read (nibOf d) op2 op3) s = .next { s with run := .terminated (.fmtNonzeroField .op2 op2) }) ∧
  (∀ (d : RegIx) (op3 : Nibble) (s : State), op3 ≠ 0 →
    exec (.read (nibOf d) 0 op3) s = .next { s with run := .terminated (.fmtNonzeroField .op3 op3) })

/-- R151: WRITE, the strict write at A of the memory M selects; read-only ROM comes before bounds. -/
def Obligations.WriteStoresToTheSelectedByte : Prop :=
  (∀ op1 op2 op3 : Nibble, decodeWord (0x4#4 ++ op1 ++ op2 ++ op3) = .write op1 op2 op3) ∧
  (∀ (r : RegIx) (s : State), s.m = false → s.a.toNat < s.cfg.ramSize → exec (.write (nibOf r) 0 0) s =
    .next { s with ram := Memory.write s.ram s.a.toNat s.x[r], pc := s.pc + 2, icount := s.icount + 1 }) ∧
  (∀ (r : RegIx) (s : State), s.m = true → s.cfg.romWritable = true → s.a.toNat < s.cfg.romSize →
    exec (.write (nibOf r) 0 0) s =
      .next { s with rom := Memory.write s.rom s.a.toNat s.x[r], pc := s.pc + 2, icount := s.icount + 1 }) ∧
  (∀ (r : RegIx) (s : State), s.m = true → s.cfg.romWritable = false → exec (.write (nibOf r) 0 0) s =
    .next { s with run := .terminated (.resourceRomReadOnly s.a.toNat) }) ∧
  (∀ (r : RegIx) (s : State), s.m = false → s.cfg.ramSize ≤ s.a.toNat → exec (.write (nibOf r) 0 0) s =
    .next { s with run := .terminated (.boundsData .ram s.a.toNat) }) ∧
  (∀ (r : RegIx) (s : State), s.m = true → s.cfg.romWritable = true → s.cfg.romSize ≤ s.a.toNat →
    exec (.write (nibOf r) 0 0) s = .next { s with run := .terminated (.boundsData .rom s.a.toNat) }) ∧
  (∀ (op1 op2 op3 : Nibble) (s : State), 7 < op1.toNat →
    exec (.write op1 op2 op3) s = .next { s with run := .terminated (.fmtBadRegister .op1 op1) }) ∧
  (∀ (r : RegIx) (op2 op3 : Nibble) (s : State), op2 ≠ 0 →
    exec (.write (nibOf r) op2 op3) s = .next { s with run := .terminated (.fmtNonzeroField .op2 op2) }) ∧
  (∀ (r : RegIx) (op3 : Nibble) (s : State), op3 ≠ 0 →
    exec (.write (nibOf r) 0 op3) s = .next { s with run := .terminated (.fmtNonzeroField .op3 op3) })

/-- R152: SWITCH_MEMORY. -/
def Obligations.SwitchMemoryTogglesM : Prop :=
  (∀ op1 op2 op3 : Nibble, decodeWord (0x7#4 ++ op1 ++ op2 ++ op3) = .switchMemory op1 op2 op3) ∧
  (∀ s : State, exec (.switchMemory 0 0 0) s =
    .next { s with m := !s.m, pc := s.pc + 2, icount := s.icount + 1 }) ∧
  (∀ (op1 op2 op3 : Nibble) (s : State), op1 ≠ 0 →
    exec (.switchMemory op1 op2 op3) s = .next { s with run := .terminated (.fmtNonzeroField .op1 op1) }) ∧
  (∀ (op2 op3 : Nibble) (s : State), op2 ≠ 0 →
    exec (.switchMemory 0 op2 op3) s = .next { s with run := .terminated (.fmtNonzeroField .op2 op2) }) ∧
  (∀ (op3 : Nibble) (s : State), op3 ≠ 0 →
    exec (.switchMemory 0 0 op3) s = .next { s with run := .terminated (.fmtNonzeroField .op3 op3) })

/-- R153: SET_A, for every one of its 4096 words. -/
def Obligations.SetALoadsTheZeroExtendedAddress : Prop :=
  (∀ addr : Addr12, decodeWord (0xA#4 ++ addr) = .setA addr) ∧
  (∀ (addr : Addr12) (s : State), exec (.setA addr) s =
    .next { s with a := BitVec.ofNat 16 addr.toNat, pc := s.pc + 2, icount := s.icount + 1 })

/-- R154: CONVERT_TO_BASE_10 writes three digits at A, A+1 and A+2, most significant first, or writes nothing. -/
def Obligations.ConvertToBase10WritesThreeDigitsOrNothing : Prop :=
  (∀ op1 op2 op3 : Nibble, decodeWord (0xD#4 ++ op1 ++ op2 ++ op3) = .convertToBase10 op1 op2 op3) ∧
  (∀ (r : RegIx) (s : State), s.m = false → s.a.toNat + 2 < s.cfg.ramSize →
    exec (.convertToBase10 (nibOf r) 0 0) s =
      .next { s with
        ram := Memory.write (Memory.write (Memory.write s.ram
            s.a.toNat (BitVec.ofNat 8 (s.x[r].toNat / 100)))
            (s.a.toNat + 1) (BitVec.ofNat 8 (s.x[r].toNat / 10 % 10)))
            (s.a.toNat + 2) (BitVec.ofNat 8 (s.x[r].toNat % 10)),
        pc := s.pc + 2, icount := s.icount + 1 }) ∧
  (∀ (r : RegIx) (s : State), s.m = true → s.cfg.romWritable = true → s.a.toNat + 2 < s.cfg.romSize →
    exec (.convertToBase10 (nibOf r) 0 0) s =
      .next { s with
        rom := Memory.write (Memory.write (Memory.write s.rom
            s.a.toNat (BitVec.ofNat 8 (s.x[r].toNat / 100)))
            (s.a.toNat + 1) (BitVec.ofNat 8 (s.x[r].toNat / 10 % 10)))
            (s.a.toNat + 2) (BitVec.ofNat 8 (s.x[r].toNat % 10)),
        pc := s.pc + 2, icount := s.icount + 1 }) ∧
  (∀ (r : RegIx) (s : State), s.m = true → s.cfg.romWritable = false → exec (.convertToBase10 (nibOf r) 0 0) s =
    .next { s with run := .terminated (.resourceRomReadOnly s.a.toNat) }) ∧
  (∀ (r : RegIx) (s : State) (k : Nat), s.m = false → k ≤ 2 → s.cfg.ramSize ≤ s.a.toNat + k →
    (∀ j < k, s.a.toNat + j < s.cfg.ramSize) →
    exec (.convertToBase10 (nibOf r) 0 0) s = .next { s with run := .terminated (.boundsData .ram (s.a.toNat + k)) }) ∧
  (∀ (r : RegIx) (s : State) (k : Nat), s.m = true → s.cfg.romWritable = true → k ≤ 2 →
    s.cfg.romSize ≤ s.a.toNat + k → (∀ j < k, s.a.toNat + j < s.cfg.romSize) →
    exec (.convertToBase10 (nibOf r) 0 0) s = .next { s with run := .terminated (.boundsData .rom (s.a.toNat + k)) }) ∧
  (∀ (op1 op2 op3 : Nibble) (s : State), 7 < op1.toNat →
    exec (.convertToBase10 op1 op2 op3) s = .next { s with run := .terminated (.fmtBadRegister .op1 op1) }) ∧
  (∀ (r : RegIx) (op2 op3 : Nibble) (s : State), op2 ≠ 0 →
    exec (.convertToBase10 (nibOf r) op2 op3) s = .next { s with run := .terminated (.fmtNonzeroField .op2 op2) }) ∧
  (∀ (r : RegIx) (op3 : Nibble) (s : State), op3 ≠ 0 →
    exec (.convertToBase10 (nibOf r) 0 op3) s = .next { s with run := .terminated (.fmtNonzeroField .op3 op3) })

/-! ### Control transfer -/

/-- R165: JUMP to an even address sets pc to exactly it; to an odd one it is fatal. -/
def Obligations.JumpSetsPc : Prop :=
  (∀ target : Addr12, decodeWord (0x5#4 ++ target) = .jump target) ∧
  (∀ (target : Addr12) (s : State), target.toNat % 2 = 0 → exec (.jump target) s =
    .next { s with pc := BitVec.ofNat 16 target.toNat, icount := s.icount + 1 }) ∧
  (∀ (target : Addr12) (s : State), target.toNat % 2 = 1 → exec (.jump target) s =
    .next { s with run := .terminated (.fmtOddJumpTarget target) })

/-- R166: SKIP_EQUAL. -/
def Obligations.SkipEqualSkipsOnEqualRegisters : Prop :=
  (∀ op1 op2 op3 : Nibble, decodeWord (0x8#4 ++ op1 ++ op2 ++ op3) = .skipEqual op1 op2 op3) ∧
  (∀ (a b : RegIx) (s : State), s.x[a] = s.x[b] → exec (.skipEqual (nibOf a) (nibOf b) 0) s =
    .next { s with pc := s.pc + 4, icount := s.icount + 1 }) ∧
  (∀ (a b : RegIx) (s : State), s.x[a] ≠ s.x[b] → exec (.skipEqual (nibOf a) (nibOf b) 0) s =
    .next { s with pc := s.pc + 2, icount := s.icount + 1 }) ∧
  (∀ (op1 op2 op3 : Nibble) (s : State), 7 < op1.toNat →
    exec (.skipEqual op1 op2 op3) s = .next { s with run := .terminated (.fmtBadRegister .op1 op1) }) ∧
  (∀ (a : RegIx) (op2 op3 : Nibble) (s : State), 7 < op2.toNat →
    exec (.skipEqual (nibOf a) op2 op3) s = .next { s with run := .terminated (.fmtBadRegister .op2 op2) }) ∧
  (∀ (a b : RegIx) (op3 : Nibble) (s : State), op3 ≠ 0 →
    exec (.skipEqual (nibOf a) (nibOf b) op3) s = .next { s with run := .terminated (.fmtNonzeroField .op3 op3) })

/-- R167: SKIP_NOT_EQUAL. -/
def Obligations.SkipNotEqualSkipsOnDifferentRegisters : Prop :=
  (∀ op1 op2 op3 : Nibble, decodeWord (0x9#4 ++ op1 ++ op2 ++ op3) = .skipNotEqual op1 op2 op3) ∧
  (∀ (a b : RegIx) (s : State), s.x[a] ≠ s.x[b] → exec (.skipNotEqual (nibOf a) (nibOf b) 0) s =
    .next { s with pc := s.pc + 4, icount := s.icount + 1 }) ∧
  (∀ (a b : RegIx) (s : State), s.x[a] = s.x[b] → exec (.skipNotEqual (nibOf a) (nibOf b) 0) s =
    .next { s with pc := s.pc + 2, icount := s.icount + 1 }) ∧
  (∀ (op1 op2 op3 : Nibble) (s : State), 7 < op1.toNat →
    exec (.skipNotEqual op1 op2 op3) s = .next { s with run := .terminated (.fmtBadRegister .op1 op1) }) ∧
  (∀ (a : RegIx) (op2 op3 : Nibble) (s : State), 7 < op2.toNat →
    exec (.skipNotEqual (nibOf a) op2 op3) s = .next { s with run := .terminated (.fmtBadRegister .op2 op2) }) ∧
  (∀ (a b : RegIx) (op3 : Nibble) (s : State), op3 ≠ 0 →
    exec (.skipNotEqual (nibOf a) (nibOf b) op3) s = .next { s with run := .terminated (.fmtNonzeroField .op3 op3) })

/-! ### Keyboard, timer, conversion and display -/

/-- R175: READ_KEYBOARD puts the provider's answer into the register. How the answer is held is the model's choice (log
3): the oldest settled answer, or, when there is none, the free byte of the draw's number. -/
def Obligations.ReadKeyboardLoadsTheProvidersAnswer : Prop :=
  (∀ op1 op2 op3 : Nibble, decodeWord (0x6#4 ++ op1 ++ op2 ++ op3) = .readKeyboard op1 op2 op3) ∧
  (∀ (d : RegIx) (k : Byte) (rest : List Byte) (s : State), s.keys = k :: rest →
    exec (.readKeyboard (nibOf d) 0 0) s =
      .next { s with x := s.x.set d k, keys := rest, pc := s.pc + 2, icount := s.icount + 1 }) ∧
  (∀ (d : RegIx) (s : State), s.keys = [] → exec (.readKeyboard (nibOf d) 0 0) s =
    .next { s with
      x := s.x.set d (Config.keyIn s.keyDraws), keyDraws := s.keyDraws + 1, pc := s.pc + 2, icount := s.icount + 1 }) ∧
  (∀ (op1 op2 op3 : Nibble) (s : State), 7 < op1.toNat →
    exec (.readKeyboard op1 op2 op3) s = .next { s with run := .terminated (.fmtBadRegister .op1 op1) }) ∧
  (∀ (d : RegIx) (op2 op3 : Nibble) (s : State), op2 ≠ 0 →
    exec (.readKeyboard (nibOf d) op2 op3) s = .next { s with run := .terminated (.fmtNonzeroField .op2 op2) }) ∧
  (∀ (d : RegIx) (op3 : Nibble) (s : State), op3 ≠ 0 →
    exec (.readKeyboard (nibOf d) 0 op3) s = .next { s with run := .terminated (.fmtNonzeroField .op3 op3) })

/-- R176: SET_T writes bits 7:0, whose low nibble must be 0; op1 has no effect. -/
def Obligations.SetTLoadsTheTimer : Prop :=
  (∀ op1 op2 op3 : Nibble, decodeWord (0xB#4 ++ op1 ++ op2 ++ op3) = .setT op1 op2 op3) ∧
  (∀ (op1 op2 : Nibble) (s : State), exec (.setT op1 op2 0) s =
    .next { s with t := BitVec.ofNat 8 (op2.toNat * 16), pc := s.pc + 2, icount := s.icount + 1 }) ∧
  (∀ (op1 op2 op3 : Nibble) (s : State), op3 ≠ 0 →
    exec (.setT op1 op2 op3) s = .next { s with run := .terminated (.fmtNonzeroField .op3 op3) })

/-- R177: READ_T copies the timer, which it does not change. -/
def Obligations.ReadTCopiesTheTimer : Prop :=
  (∀ op1 op2 op3 : Nibble, decodeWord (0xC#4 ++ op1 ++ op2 ++ op3) = .readT op1 op2 op3) ∧
  (∀ (d : RegIx) (s : State), exec (.readT (nibOf d) 0 0) s =
    .next { s with x := s.x.set d s.t, pc := s.pc + 2, icount := s.icount + 1 }) ∧
  (∀ (op1 op2 op3 : Nibble) (s : State), 7 < op1.toNat →
    exec (.readT op1 op2 op3) s = .next { s with run := .terminated (.fmtBadRegister .op1 op1) }) ∧
  (∀ (d : RegIx) (op2 op3 : Nibble) (s : State), op2 ≠ 0 →
    exec (.readT (nibOf d) op2 op3) s = .next { s with run := .terminated (.fmtNonzeroField .op2 op2) }) ∧
  (∀ (d : RegIx) (op3 : Nibble) (s : State), op3 ≠ 0 →
    exec (.readT (nibOf d) 0 op3) s = .next { s with run := .terminated (.fmtNonzeroField .op3 op3) })

/-- R178: CONVERT_BYTE_TO_ASCII. -/
def Obligations.ConvertByteToAsciiGivesTheDigitsCode : Prop :=
  (∀ op1 op2 op3 : Nibble, decodeWord (0xE#4 ++ op1 ++ op2 ++ op3) = .convertByteToAscii op1 op2 op3) ∧
  (∀ (r d : RegIx) (s : State), (s.x[r]).toNat ≤ 9 → exec (.convertByteToAscii (nibOf r) (nibOf d) 0) s =
    .next { s with x := s.x.set d (BitVec.ofNat 8 (0x30 + (s.x[r]).toNat)), pc := s.pc + 2, icount := s.icount + 1 }) ∧
  (∀ (r d : RegIx) (s : State), 10 ≤ (s.x[r]).toNat → (s.x[r]).toNat ≤ 15 →
    exec (.convertByteToAscii (nibOf r) (nibOf d) 0) s =
      .next { s with x := s.x.set d (BitVec.ofNat 8 (0x37 + (s.x[r]).toNat)), pc := s.pc + 2, icount := s.icount + 1 }) ∧
  (∀ (r d : RegIx) (s : State), 16 ≤ (s.x[r]).toNat → exec (.convertByteToAscii (nibOf r) (nibOf d) 0) s =
    .next { s with run := .terminated (.fmtDigitTooLarge s.x[r]) }) ∧
  (∀ (op1 op2 op3 : Nibble) (s : State), 7 < op1.toNat →
    exec (.convertByteToAscii op1 op2 op3) s = .next { s with run := .terminated (.fmtBadRegister .op1 op1) }) ∧
  (∀ (r : RegIx) (op2 op3 : Nibble) (s : State), 7 < op2.toNat →
    exec (.convertByteToAscii (nibOf r) op2 op3) s = .next { s with run := .terminated (.fmtBadRegister .op2 op2) }) ∧
  (∀ (r d : RegIx) (op3 : Nibble) (s : State), op3 ≠ 0 →
    exec (.convertByteToAscii (nibOf r) (nibOf d) op3) s = .next { s with run := .terminated (.fmtNonzeroField .op3 op3) })

/-- R179: DRAW at a literal row and column, with its checks in order: register, character, row, column. -/
def Obligations.DrawWritesOneCell : Prop :=
  (∀ op1 op2 op3 : Nibble, decodeWord (0xF#4 ++ op1 ++ op2 ++ op3) = .draw op1 op2 op3) ∧
  (∀ (r row col : Fin 8) (s : State), (s.x[r]).toNat ≤ 0x7F → exec (.draw (nibOf r) (nibOf row) (nibOf col)) s =
    .next { s with disp := s.disp.set (row.val * 8 + col.val) s.x[r], pc := s.pc + 2, icount := s.icount + 1 }) ∧
  (∀ (op1 op2 op3 : Nibble) (s : State), 7 < op1.toNat →
    exec (.draw op1 op2 op3) s = .next { s with run := .terminated (.fmtBadRegister .op1 op1) }) ∧
  (∀ (r : RegIx) (op2 op3 : Nibble) (s : State), 0x7F < (s.x[r]).toNat →
    exec (.draw (nibOf r) op2 op3) s = .next { s with run := .terminated (.fmtBadChar s.x[r]) }) ∧
  (∀ (r : RegIx) (op2 op3 : Nibble) (s : State), (s.x[r]).toNat ≤ 0x7F → 7 < op2.toNat →
    exec (.draw (nibOf r) op2 op3) s = .next { s with run := .terminated (.fmtBadRow op2) }) ∧
  (∀ (r : RegIx) (row : Fin 8) (op3 : Nibble) (s : State), (s.x[r]).toNat ≤ 0x7F → 7 < op3.toNat →
    exec (.draw (nibOf r) (nibOf row) op3) s = .next { s with run := .terminated (.fmtBadCol op3) })

/-! ### Frames and whole-machine rules -/

/-- The frame of STORE, ADD, SUB, READ, READ_KEYBOARD, READ_T and CONVERT_BYTE_TO_ASCII, for every operand: only the
destination register may change, and no byte of memory (R31, R140-R142, R150, R175, R177, R178). What READ_KEYBOARD
takes from the provider is left out of its clause. -/
def Obligations.RegisterWritersFrame : Prop :=
  ∀ (i : Instr) (dest : Nibble) (s t : State),
    ((∃ imm, i = .store dest imm) ∨ (∃ a b, i = .add a b dest) ∨ (∃ a b, i = .sub a b dest) ∨
      (∃ y z, i = .read dest y z) ∨ (∃ y z, i = .readKeyboard dest y z) ∨ (∃ y z, i = .readT dest y z) ∨
      (∃ a z, i = .convertByteToAscii a dest z)) →
    exec i s = .next t →
    (∀ r : RegIx, nibOf r ≠ dest → t.x[r] = s.x[r]) ∧
    t.t = s.t ∧ t.a = s.a ∧ t.m = s.m ∧ t.plen = s.plen ∧ t.cfg = s.cfg ∧ t.disp = s.disp ∧
    (∀ (sp : Space) (b : Nat), Memory.read (t.memOf sp) b = Memory.read (s.memOf sp) b) ∧
    (i.opcode ≠ .readKeyboard → t.keys = s.keys ∧ t.keyDraws = s.keyDraws)

/-- The frame of WRITE and CONVERT_TO_BASE_10, for every operand: no register changes, and every byte of either memory
outside the stored bytes reads as before. The stored bytes are one at A, or three from A on, of the memory M selects
(R151, R154, R155). The premise that both memories are in canonical form is a part of the invariant. -/
def Obligations.StoringInstructionsFrame : Prop :=
  ∀ (i : Instr) (stored : Nat) (s t : State),
    (((∃ x y z, i = .write x y z) ∧ stored = 1) ∨ ((∃ x y z, i = .convertToBase10 x y z) ∧ stored = 3)) →
    Memory.wf s.ram = true → Memory.wf s.rom = true → exec i s = .next t →
    t.x = s.x ∧ t.t = s.t ∧ t.a = s.a ∧ t.m = s.m ∧ t.plen = s.plen ∧ t.cfg = s.cfg ∧ t.disp = s.disp ∧
    t.keys = s.keys ∧ t.keyDraws = s.keyDraws ∧
    ∀ (sp : Space) (b : Nat), (sp = s.selected → ∀ k < stored, b ≠ s.dataAddr k) →
      Memory.read (t.memOf sp) b = Memory.read (s.memOf sp) b

/-- The frame of JUMP, SKIP_EQUAL and SKIP_NOT_EQUAL, for every operand: nothing but pc, ICOUNT and RUN may change
(R165-R167). -/
def Obligations.ControlTransferFrame : Prop :=
  ∀ (i : Instr) (s t : State),
    (i.opcode = .jump ∨ i.opcode = .skipEqual ∨ i.opcode = .skipNotEqual) → exec i s = .next t →
    t = { s with pc := t.pc, icount := t.icount, run := t.run } ∧
    ∀ (sp : Space) (b : Nat), Memory.read (t.memOf sp) b = Memory.read (s.memOf sp) b

/-- The frame of SWITCH_MEMORY, SET_A, SET_T and DRAW, for every operand: besides pc, ICOUNT and RUN, only M, A, T or
the one display cell may change (R152, R153, R176, R179). -/
def Obligations.ControlRegisterAndDisplayFrame : Prop :=
  ∀ (i : Instr) (s t : State), exec i s = .next t →
    (i.opcode = .switchMemory → t = { s with pc := t.pc, icount := t.icount, run := t.run, m := t.m }) ∧
    (i.opcode = .setA → t = { s with pc := t.pc, icount := t.icount, run := t.run, a := t.a }) ∧
    (i.opcode = .setT → t = { s with pc := t.pc, icount := t.icount, run := t.run, t := t.t }) ∧
    (∀ op1 op2 op3 : Nibble, i = .draw op1 op2 op3 →
      t = { s with pc := t.pc, icount := t.icount, run := t.run, disp := t.disp } ∧
      ∀ k : Fin 64, k.val ≠ op2.toNat * 8 + op3.toNat → t.disp[k] = s.disp[k])

/-- R31, R34-R36, R41, R43-R45: each piece of state is changed in a step only by the instructions the spec names. -/
def Obligations.EachStateChangesOnlyByItsWriters : Prop :=
  ∀ (i : Instr) (s t : State), exec i s = .next t →
    t.cfg = s.cfg ∧ t.plen = s.plen ∧
    (t.t ≠ s.t → i.opcode = .setT) ∧
    (t.a ≠ s.a → i.opcode = .setA) ∧
    (t.m ≠ s.m → i.opcode = .switchMemory) ∧
    (t.disp ≠ s.disp → i.opcode = .draw) ∧
    (t.ram ≠ s.ram → s.m = false ∧ (i.opcode = .write ∨ i.opcode = .convertToBase10)) ∧
    (t.rom ≠ s.rom → s.m = true ∧ s.cfg.romWritable = true ∧ (i.opcode = .write ∨ i.opcode = .convertToBase10)) ∧
    (t.keys ≠ s.keys ∨ t.keyDraws ≠ s.keyDraws → i.opcode = .readKeyboard) ∧
    (t.x ≠ s.x → i.opcode ∈ [Opcode.store, .add, .sub, .read, .readKeyboard, .readT, .convertByteToAscii])

/-- R44: while ROM is not writable, no step changes it. -/
def Obligations.ReadOnlyRomNeverChanges : Prop :=
  ∀ (n : Nat) (s t : State), s.cfg.romWritable = false → Sys2Proof.core.run n s = .next t →
    t.rom = s.rom ∧ t.plen = s.plen ∧ t.cfg = s.cfg

/-- R45: no instruction reads the display. Two states that differ only in DISP step to states that differ only in
DISP. -/
def Obligations.DisplayIsNeverRead : Prop :=
  ∀ (s t : State) (disp : Vector Byte 64), step s = .next t →
    ∃ disp' : Vector Byte 64, step { s with disp := disp } = .next { t with disp := disp' }

/-- What R176 and R177 derive: SET_T's op1 has no effect; a step can change T only to a multiple of 16; and after SET_T
and `k` ticks, READ_T gives the set value less `k`, and 0 once that is used up. -/
def Obligations.TimerIsSetToMultiplesOf16AndCountsDown : Prop :=
  (∀ (op1 op1' op2 op3 : Nibble) (s : State), exec (.setT op1 op2 op3) s = exec (.setT op1' op2 op3) s) ∧
  (∀ s t : State, step s = .next t → t.t ≠ s.t → t.t.toNat % 16 = 0) ∧
  (∀ (op1 op2 : Nibble) (d : RegIx) (k : Nat) (s t : State), exec (.setT op1 op2 0) s = .next t →
    ∃ u : State, exec (.readT (nibOf d) 0 0) (State.tick^[k] t) = .next u ∧ (u.x[d]).toNat = op2.toNat * 16 - k)

/-! ### The step -/

/-- R120: when RUN is Running, neither check A nor check B applies, and the two ROM bytes at an even pc decode to `i`,
the step is exactly `i`'s handler and commit. -/
def Obligations.StepRunsTheDecodedInstruction : Prop :=
  ∀ (s : State) (i : Instr), s.run = .running → ¬ (0 < s.icount ∧ s.pc = 0) → s.pc.toNat < s.plen →
    s.pc.toNat % 2 = 0 → s.pc.toNat + 1 < s.cfg.romSize →
    decodeBytes [Memory.read s.rom s.pc.toNat, Memory.read s.rom (s.pc.toNat + 1)] = .ok (i, []) →
    step s = exec i s

/-- R121: a step of a terminated machine changes no state, however often it is called. -/
def Obligations.TerminatedMachineStaysAsItIs : Prop :=
  ∀ (s : State) (q : Reason) (n : Nat), s.run = .terminated q →
    step s = .next s ∧ Sys2Proof.core.run n s = .next s

/-- R122: check A ends the run at pc = 0 once an instruction has executed, before any fetch, and does not apply when
none has. -/
def Obligations.CheckAEndsTheRunAtPcZero : Prop :=
  (∀ s : State, s.run = .running → 0 < s.icount → s.pc = 0 →
    step s = .next { s with run := .terminated .haltPcZero }) ∧
  (∀ s t : State, s.run = .running → s.icount = 0 → step s = .next t → t.run ≠ .terminated .haltPcZero) ∧
  Reason.haltPcZero.category = .normalTermination ∧ Reason.haltPcZero.message = some "terminated: PC reached 0"

/-- R123: check B ends the run at pc ≥ PLEN, after check A and before any fetch. -/
def Obligations.CheckBEndsTheRunPastTheProgram : Prop :=
  (∀ s : State, s.run = .running → ¬ (0 < s.icount ∧ s.pc = 0) → s.plen ≤ s.pc.toNat →
    step s = .next { s with run := .terminated (.haltOutOfProgram s.pc) }) ∧
  (∀ s : State, s.run = .running → 0 < s.icount → s.pc = 0 → s.plen = 0 →
    step s = .next { s with run := .terminated .haltPcZero }) ∧
  (∀ pc : Word, (Reason.haltOutOfProgram pc).category = .normalTermination ∧
    (Reason.haltOutOfProgram pc).message = some "terminated: out of bounds")

/-- R125: the fetch, from ROM whatever M holds, raw bytes, big-endian, or one of its two faults. -/
def Obligations.FetchReadsTheBigEndianWordOrFaults : Prop :=
  ∀ s : State, s.run = .running → ¬ (0 < s.icount ∧ s.pc = 0) → s.pc.toNat < s.plen →
    (s.pc.toNat % 2 = 1 → step s = .next { s with run := .terminated (.fetchMisaligned s.pc) }) ∧
    (s.pc.toNat % 2 = 0 → s.cfg.romSize ≤ s.pc.toNat + 1 →
      step s = .next { s with run := .terminated (.boundsFetch s.pc) }) ∧
    (s.pc.toNat % 2 = 0 → s.pc.toNat + 1 < s.cfg.romSize →
      step s = exec (decodeWord (BitVec.ofNat 16
        ((Memory.read s.rom s.pc.toNat).toNat * 256 + (Memory.read s.rom (s.pc.toNat + 1)).toNat))) s)

/-- R133: a step always answers a state, which is Running with one more instruction completed, or Terminated with a
reason; there is no third outcome. -/
def Obligations.EveryStepCompletesOrTerminates : Prop :=
  ∀ s : State, ∃ t : State, step s = .next t ∧
    ((s.run = .running ∧ t.run = .running ∧ t.icount = s.icount + 1) ∨ ∃ q : Reason, t.run = .terminated q)

/-- R131: a step that ends the run changes nothing but RUN and RSN, so pc still holds the failing instruction. -/
def Obligations.FailingStepChangesOnlyRunAndRsn : Prop :=
  ∀ (s t : State) (q : Reason), s.run = .running → step s = .next t → t.run = .terminated q →
    t = { s with run := .terminated q }

/-- R130, R132: a step that succeeds counts one instruction and sets pc to one of the sequencer's three values. -/
def Obligations.SuccessfulStepSequencesPcAndCounts : Prop :=
  ∀ s t : State, s.run = .running → step s = .next t → t.run = .running →
    t.icount = s.icount + 1 ∧
    ∃ i : Instr,
      i = decodeWord (wordOfBytes (Memory.read s.rom s.pc.toNat) (Memory.read s.rom (s.pc.toNat + 1))) ∧
      exec i s = .next t ∧
      (∀ target : Addr12, i = .jump target → t.pc = BitVec.ofNat 16 target.toNat) ∧
      (∀ op1 op2 op3 : Nibble, i = .skipEqual op1 op2 op3 → ∃ a b : RegIx, op1 = nibOf a ∧ op2 = nibOf b ∧
        t.pc = (if s.x[a] = s.x[b] then s.pc + 4 else s.pc + 2)) ∧
      (∀ op1 op2 op3 : Nibble, i = .skipNotEqual op1 op2 op3 → ∃ a b : RegIx, op1 = nibOf a ∧ op2 = nibOf b ∧
        t.pc = (if s.x[a] = s.x[b] then s.pc + 2 else s.pc + 4)) ∧
      (i.opcode ≠ .jump → i.opcode ≠ .skipEqual → i.opcode ≠ .skipNotEqual → t.pc = s.pc + 2)

/-- R134, with R122 and R123: a step of a running machine ends the run successfully exactly when check A or check B
applies; every other end is an error. -/
def Obligations.RunEndsWellExactlyAtTheTwoHalts : Prop :=
  ∀ s t : State, s.run = .running → step s = .next t →
    (t.endedWell = true ↔ (0 < s.icount ∧ s.pc = 0) ∨ s.plen ≤ s.pc.toNat) ∧
    (t.endedInError = true ↔ t.run ≠ .running ∧ t.endedWell = false)

/-- R200: the information each reason records, for every reason a step of a running machine can give. `f` and `o` are
the fields and the opcode of the word at pc: a bad field is recorded under its own name with its own value, and the
opcode makes that use of it; the target, row and column are the word's, and the digit and the character are those of
the register op1 names; a data address is A, or the first of A, A+1 and A+2 outside the memory. -/
def Obligations.ReasonsRecordTheirInformation : Prop :=
  ∀ (s t : State) (q : Reason) (f : Fields) (o : Opcode), s.run = .running → step s = .next t → t.run = .terminated q →
    f = fieldsOf (wordOfBytes (Memory.read s.rom s.pc.toNat) (Memory.read s.rom (s.pc.toNat + 1))) →
    o = Opcode.ofNibble f.opcode →
    match q with
    | .haltPcZero => s.pc = 0 ∧ 0 < s.icount
    | .haltOutOfProgram pc => pc = s.pc ∧ s.plen ≤ pc.toNat
    | .fmtBadRegister field v => o.useOf field = .register ∧ v = f.operand field ∧ 8 ≤ v.toNat
    | .fmtNonzeroField field v => o.useOf field = .zero ∧ v = f.operand field ∧ 1 ≤ v.toNat
    | .fmtOddJumpTarget target => o = .jump ∧ target = f.addressOperand ∧ target.toNat % 2 = 1
    | .fmtDigitTooLarge v => o = .convertByteToAscii ∧ 0x10 ≤ v.toNat ∧ ∃ r : RegIx, f.op1 = nibOf r ∧ v = s.x[r]
    | .fmtBadChar v => o = .draw ∧ 0x80 ≤ v.toNat ∧ ∃ r : RegIx, f.op1 = nibOf r ∧ v = s.x[r]
    | .fmtBadRow row => o = .draw ∧ row = f.op2 ∧ 8 ≤ row.toNat
    | .fmtBadCol col => o = .draw ∧ col = f.op3 ∧ 8 ≤ col.toNat
    | .fetchMisaligned pc => pc = s.pc ∧ pc.toNat % 2 = 1
    | .boundsFetch pc => pc = s.pc ∧ s.cfg.romSize ≤ pc.toNat + 1
    | .boundsData sp a => sp = s.selected ∧ s.sizeOf sp ≤ a ∧ (sp = .rom → s.cfg.romWritable = true) ∧
        ((o = .write ∧ a = s.a.toNat) ∨
          (o = .convertToBase10 ∧ ∃ k ≤ 2, a = s.a.toNat + k ∧ ∀ j < k, s.a.toNat + j < s.sizeOf sp))
    | .resourceRomReadOnly a => (o = .write ∨ o = .convertToBase10) ∧ a = s.a.toNat ∧ s.m = true ∧
        s.cfg.romWritable = false

/-- R200, R201: the codes, and errors from 16 on. -/
def Obligations.ReasonCodesDivideAt16 : Prop :=
  Reason.haltPcZero.code = 1 ∧ (∀ pc, (Reason.haltOutOfProgram pc).code = 2) ∧
  (∀ f v, (Reason.fmtBadRegister f v).code = 16) ∧ (∀ f v, (Reason.fmtNonzeroField f v).code = 17) ∧
  (∀ v, (Reason.fmtOddJumpTarget v).code = 18) ∧ (∀ v, (Reason.fmtDigitTooLarge v).code = 19) ∧
  (∀ v, (Reason.fmtBadChar v).code = 20) ∧ (∀ v, (Reason.fmtBadRow v).code = 21) ∧
  (∀ v, (Reason.fmtBadCol v).code = 22) ∧ (∀ v, (Reason.fetchMisaligned v).code = 23) ∧
  (∀ v, (Reason.boundsFetch v).code = 32) ∧ (∀ sp v, (Reason.boundsData sp v).code = 33) ∧
  (∀ v, (Reason.resourceRomReadOnly v).code = 48) ∧
  (∀ q : Reason, q.isError = true ↔ 16 ≤ q.code) ∧
  (∀ q : Reason, q.category = .formatError ↔ 16 ≤ q.code ∧ q.code ≤ 23)

/-! ### The invariant -/

/-- R48, R250: the invariant holds after construction with legal parameters, and after reset. -/
def Obligations.InvariantHoldsAfterConstruction : Prop :=
  (∀ cfg : Config, cfg.Legal → (State.construct cfg).Inv) ∧ State.reset.Inv

/-- R48: every step keeps the invariant, from every state that has it. -/
def Obligations.EveryStepKeepsTheInvariant : Prop :=
  ∀ s t : State, s.Inv → step s = .next t → t.Inv

/-- R48: the invariant holds after every step, load, reset and host action, in every interleaving; and no such
sequence stops. -/
def Obligations.EveryEventSequenceKeepsTheInvariant : Prop :=
  ∀ (events : List Event) (s : State), s.Inv → ∃ t : State, runEvents events s = .next t ∧ t.Inv

/-! ### Construction, load, reset and the host -/

/-- R250: the state after construction, for every configuration. -/
def Obligations.ConstructionState : Prop :=
  ∀ cfg : Config, (State.construct cfg).cfg = cfg ∧
    (∀ r : RegIx, (State.construct cfg).x[r] = 0) ∧ (State.construct cfg).pc = 0 ∧ (State.construct cfg).t = 0 ∧
    (State.construct cfg).a = 0 ∧ (State.construct cfg).m = false ∧
    (∀ (sp : Space) (b : Nat), Memory.read ((State.construct cfg).memOf sp) b = 0) ∧
    (∀ k : Fin 64, (State.construct cfg).disp[k] = 0x20) ∧
    (State.construct cfg).plen = 0 ∧ (State.construct cfg).run = .running ∧ (State.construct cfg).icount = 0

/-- What R165, R166, R250 and R253 derive from the termination checks: a jump to 0, a jump or a taken skip past the
program, a step before any load and an empty program end the run normally; a one-byte program has one instruction.
The first clause: the state after reset is the one after construction in the reference configuration (log 1). -/
def Obligations.CornerCasesOfTheTerminationChecks : Prop :=
  State.reset = State.construct Config.reference ∧
  (∀ cfg : Config, step (State.construct cfg) =
    .next { State.construct cfg with run := .terminated (.haltOutOfProgram 0) }) ∧
  (∀ s t : State, s.load [] = .ok t → step t = .next { t with run := .terminated (.haltOutOfProgram 0) }) ∧
  (∀ (s t : State) (b : Byte), 2 ≤ s.cfg.romSize → s.load [b] = .ok t → step t = exec (decodeWord (b ++ 0x00#8)) t) ∧
  (∀ s t : State, s.run = .running → exec (.jump 0) s = .next t →
    step t = .next { t with run := .terminated .haltPcZero }) ∧
  (∀ (target : Addr12) (s t : State), s.run = .running → target.toNat % 2 = 0 → target ≠ 0 → s.plen ≤ target.toNat →
    exec (.jump target) s = .next t → step t = .next { t with run := .terminated (.haltOutOfProgram t.pc) }) ∧
  (∀ (a b : RegIx) (s t : State), s.run = .running → s.pc.toNat + 2 = s.plen → s.plen + 2 < 65536 →
    (s.x[a] = s.x[b] ∧ exec (.skipEqual (nibOf a) (nibOf b) 0) s = .next t) ∨
      (s.x[a] ≠ s.x[b] ∧ exec (.skipNotEqual (nibOf a) (nibOf b) 0) s = .next t) →
    t.pc.toNat = s.plen + 2 ∧ step t = .next { t with run := .terminated (.haltOutOfProgram t.pc) })

/-- R251, R252: a load of more than ROM_SIZE bytes fails and changes no state; what a load of at most ROM_SIZE bytes
does, from any state. -/
def Obligations.LoadStartsANewRunOrChangesNothing : Prop :=
  (∀ (s : State) (bytes : List Byte), s.cfg.romSize < bytes.length →
    s.load bytes = .error .tooLarge ∧ (HostAction.load bytes).apply s = s) ∧
  (∀ (s : State) (bytes : List Byte), bytes.length ≤ s.cfg.romSize → ∃ t : State, s.load bytes = .ok t ∧
    (∀ b : Nat, Memory.read t.rom b = bytes.getD b 0) ∧ t.plen = bytes.length ∧
    (∀ r : RegIx, t.x[r] = 0) ∧ t.pc = 0 ∧ t.t = 0 ∧ t.a = 0 ∧ t.m = false ∧
    (∀ b : Nat, Memory.read t.ram b = 0) ∧ (∀ k : Fin 64, t.disp[k] = 0x20) ∧
    t.run = .running ∧ t.icount = 0 ∧ t.cfg = s.cfg)

/-- R254: what the machine reset does, from any state: ROM, PLEN and ROM_WRITABLE stay. -/
def Obligations.ResetStartsANewRun : Prop :=
  ∀ s : State, ∃ t : State, HostAction.reset.attempt s = .ok t ∧
    (∀ r : RegIx, t.x[r] = 0) ∧ t.pc = 0 ∧ t.t = 0 ∧ t.a = 0 ∧ t.m = false ∧
    (∀ b : Nat, Memory.read t.ram b = 0) ∧ (∀ k : Fin 64, t.disp[k] = 0x20) ∧
    t.run = .running ∧ t.icount = 0 ∧ t.rom = s.rom ∧ t.plen = s.plen ∧ t.cfg = s.cfg

/-- R254, with R44: with read-only ROM, resetting after any number of steps gives the state after the load again, but
for what the keyboard provider has answered meanwhile. -/
def Obligations.ResetRerunsTheLoadedProgram : Prop :=
  ∀ (s t u : State) (bytes : List Byte) (n : Nat), s.cfg.romWritable = false → s.load bytes = .ok t →
    Sys2Proof.core.run n t = .next u → u.machineReset = { t with keys := u.keys, keyDraws := u.keyDraws }

/-- R215: a tick lowers T by one, never below 0, and changes nothing else; so do `k` of them. -/
def Obligations.TicksLowerTheTimerTowardZero : Prop :=
  (∀ s : State, s.tick = { s with t := BitVec.ofNat 8 (s.t.toNat - 1) }) ∧
  (∀ (s : State) (k : Nat), State.tick^[k] s = { s with t := BitVec.ofNat 8 (s.t.toNat - k) })

/-- R228: the host's setters, within their ranges and outside them. A rejected set changes no state, and no set
changes RUN or RSN. -/
def Obligations.SettersAcceptExactlyTheirRanges : Prop :=
  (∀ (s : State) (r : RegIx) (v : Byte), s.setRegister r.val v.toNat = .ok { s with x := s.x.set r v }) ∧
  (∀ (s : State) (i v : Int), (i < 0 ∨ 7 < i ∨ v < 0 ∨ 255 < v) → s.setRegister i v = .error .rejected) ∧
  (∀ (s : State) (v : Word), v.toNat % 2 = 0 → s.setPc v.toNat = .ok { s with pc := v }) ∧
  (∀ (s : State) (v : Int), (v < 0 ∨ 0xFFFF < v ∨ v % 2 = 1) → s.setPc v = .error .rejected) ∧
  (∀ (s : State) (v : Byte), s.setTimerTo v.toNat = .ok { s with t := v }) ∧
  (∀ (s : State) (v : Int), (v < 0 ∨ 255 < v) → s.setTimerTo v = .error .rejected) ∧
  (∀ (s : State) (v : Word), s.setAddress v.toNat = .ok { s with a := v }) ∧
  (∀ (s : State) (v : Int), (v < 0 ∨ 0xFFFF < v) → s.setAddress v = .error .rejected) ∧
  (∀ (s : State) (v : Bool), s.setSelect v = { s with m := v }) ∧
  (∀ (act : HostAction) (s : State) (e : UsageError), act.attempt s = .error e → act.apply s = s) ∧
  (∀ (s : State) (i v : Int), ((HostAction.setRegister i v).apply s).run = s.run ∧
    ((HostAction.setPc v).apply s).run = s.run ∧ ((HostAction.setTimer v).apply s).run = s.run ∧
    ((HostAction.setAddress v).apply s).run = s.run) ∧
  (∀ (s : State) (r : RegIx), s.getRegister r.val = .ok s.x[r]) ∧
  (∀ s : State, s.getPc = s.pc ∧ s.getTimer = s.t ∧ s.getAddress = s.a ∧ s.getSelect = s.m)

/-- R229, with R62 and R63: direct memory access by address, whatever M and PLEN are; ReadOnly before OutOfRange. A
failure changes nothing. -/
def Obligations.DirectMemoryAccessIsStrict : Prop :=
  (∀ (s : State) (sp : Space) (b : Nat), b < s.sizeOf sp → s.strictRead sp b = .ok (Memory.read (s.memOf sp) b)) ∧
  (∀ (s : State) (sp : Space) (b : Int), (b < 0 ∨ (s.sizeOf sp : Int) ≤ b) → s.strictRead sp b = .error .outOfRange) ∧
  (∀ (s : State) (b : Nat) (v : Byte), b < s.cfg.ramSize →
    s.strictWrite .ram b v.toNat = .ok { s with ram := Memory.write s.ram b v }) ∧
  (∀ (s : State) (b : Nat) (v : Byte), s.cfg.romWritable = true → b < s.cfg.romSize →
    s.strictWrite .rom b v.toNat = .ok { s with rom := Memory.write s.rom b v }) ∧
  (∀ (s : State) (b v : Int), s.cfg.romWritable = false → s.strictWrite .rom b v = .error .readOnly) ∧
  (∀ (s : State) (sp : Space) (b v : Int), (sp = .rom → s.cfg.romWritable = true) →
    (b < 0 ∨ (s.sizeOf sp : Int) ≤ b ∨ v < 0 ∨ 255 < v) → s.strictWrite sp b v = .error .outOfRange) ∧
  (∀ (s : State) (sp : Space) (b v : Int) (e : UsageError), s.strictWrite sp b v = .error e →
    (HostAction.writeMemory sp b v).apply s = s)

/-- R231, R218: a bounded run, under every tick schedule, that reports BOUND_REACHED has completed exactly `n`
instructions, by `n` steps with the schedule's ticks before them, and is still Running; one that reports a termination
is in that termination, reached within `n` such steps. One of the two is always reported. With no ticks the steps are
those of `core.run`. How a bound of 0 is read, and that ticks fall before the steps alone, is log 22. -/
def Obligations.BoundedRunReports : Prop :=
  ∀ (n : Nat) (ticks : List Nat) (s : State), ∃ (report : RunReport) (t : State),
    runBound n ticks s = .next (report, t) ∧
    (report = .boundReached →
      t.run = .running ∧ t.icount = s.icount + n ∧ runEvents (tickedSteps n ticks) s = .next t ∧
      (ticks = [] → Sys2Proof.core.run n s = .next t)) ∧
    (∀ q : Reason, report = .terminated q → t.run = .terminated q ∧ (∃ m ≤ n, m + s.icount = t.icount) ∧
      ∃ k ≤ n, runEvents (tickedSteps k ticks) s = .next t ∧ (ticks = [] → Sys2Proof.core.run k s = .next t))

/-- R224: render gives 8 lines of 8 glyphs, row-major, each cell shown by the glyph rule; it reads only DISP; and the
layout alone says what separates the lines. -/
def Obligations.RenderShowsEveryCell : Prop :=
  ∀ s : State, s.renderLines.length = 8 ∧
    (∀ row col : Fin 8, (s.renderLine row).length = 8 ∧ s.renderLines[row.val]? = some (s.renderLine row) ∧
      (s.renderLine row)[col.val]? =
        some (if 33 ≤ (s.disp[row.val * 8 + col.val]).toNat ∧ (s.disp[row.val * 8 + col.val]).toNat ≤ 126
          then Char.ofNat (s.disp[row.val * 8 + col.val]).toNat else '#')) ∧
    (∀ (t : State) (layout : RenderLayout), t.disp = s.disp →
      t.renderLines = s.renderLines ∧ t.renderText layout = s.renderText layout) ∧
    ∀ separator : List Char, s.renderText ⟨separator, false⟩ = separator.intercalate s.renderLines ∧
      s.renderText ⟨separator, true⟩ = separator.intercalate s.renderLines ++ separator

/-- R103: assembly and disassembly are inverse on valid words, but for the nibble SET_T ignores; the assembler refuses
operands outside their ranges, and an invalid word disassembles to `.word`. -/
def Obligations.AssemblyAndDisassemblyAreInverse : Prop :=
  (∀ w : Word, (decodeWord w).wellFormed = true → (decodeWord w).opcode ≠ .setT → assemble (disassemble w) = some w) ∧
  (∀ w : Word, (decodeWord w).wellFormed = true → (decodeWord w).opcode = .setT →
    assemble (disassemble w) = some (w &&& 0xF0FF)) ∧
  (∀ (o : Opcode) (operands : List AsmOperand) (w : Word), assemble (.line o operands) = some w →
    (decodeWord w).wellFormed = true ∧ disassemble w = .line o operands) ∧
  (∀ w : Word, (decodeWord w).wellFormed = false → disassemble w = .dotWord w)

/-! ### Memory rules -/

/-- Read after write (R61, R69): a stored byte reads back, every other byte reads as before, the canonical form is kept,
and memories in that form with the same bytes are equal (the form is the model's, log 14). -/
def Obligations.StoredBytesReadBack : Prop :=
  (∀ (mem : Memory) (a b : Nat) (v : Byte), Memory.wf mem = true →
    Memory.read (Memory.write mem a v) b = (if b = a then v else Memory.read mem b) ∧
    Memory.wf (Memory.write mem a v) = true) ∧
  ∀ mem1 mem2 : Memory, Memory.wf mem1 = true → Memory.wf mem2 = true →
    (∀ b : Nat, Memory.read mem1 b = Memory.read mem2 b) → mem1 = mem2

/-- R66: the two tolerant reads, each 0 beyond its extent; TolRom is 0 from ROM_SIZE on. -/
def Obligations.TolerantReadsGiveZeroBeyondTheirExtent : Prop :=
  (∀ (s : State) (b : Nat), s.tolRam b = if b < s.cfg.ramSize then Memory.read s.ram b else 0) ∧
  (∀ (s : State) (b : Nat), s.tolRom b = if b < s.plen then Memory.read s.rom b else 0) ∧
  (∀ (s : State) (b : Nat), s.plen ≤ s.cfg.romSize → s.cfg.romSize ≤ b → s.tolRom b = 0)

/-- R80: a byte WRITE stores into writable ROM is what the next fetch of that address reads. -/
def Obligations.StoredCodeIsFetchedNext : Prop :=
  ∀ (s t : State) (r : RegIx) (p : Word), s.Inv → s.m = true → s.cfg.romWritable = true → s.a.toNat < s.cfg.romSize →
    exec (.write (nibOf r) 0 0) s = .next t → p.toNat % 2 = 0 → p.toNat + 1 < s.cfg.romSize →
    fetch { t with pc := p } = .ok (wordOfBytes
      (if p.toNat = s.a.toNat then s.x[r] else Memory.read s.rom p.toNat)
      (if p.toNat + 1 = s.a.toNat then s.x[r] else Memory.read s.rom (p.toNat + 1)))

/-- The interface's placement of a word (log 15): from every legal state of a machine whose ROM holds a word, the very
next step runs the word's instruction, and the placed state is legal too. -/
def Obligations.PlacedWordIsRunNext : Prop :=
  ∀ (s : State) (w : Nat), s.Inv → 2 ≤ s.cfg.romSize →
    step (s.withFetchWord 16 w) = exec (decodeWord (BitVec.ofNat 16 w)) (s.withFetchWord 16 w) ∧
    (s.withFetchWord 16 w).Inv ∧ decodeTableWord 16 w = some (decodeWord (BitVec.ofNat 16 w))
end

