-- ==== Sys2Proof/Laws/Encoding.lean ====
section
/-! SUPPORT. The layout of a word: four nibbles side by side, taken apart by the decoder and put together by the
encoder (R91). -/

namespace Sys2Proof

/-- A word as its four nibbles, most significant first (R91). -/
def nibbles4 (n3 n2 n1 n0 : Nibble) : Word := n3 ++ n2 ++ n1 ++ n0

theorem nibbles4_toNat (n3 n2 n1 n0 : Nibble) :
    (nibbles4 n3 n2 n1 n0).toNat = n3.toNat * 4096 + n2.toNat * 256 + n1.toNat * 16 + n0.toNat := by
  simp only [nibbles4, BitVec.toNat_append]
  rw [← Nat.shiftLeft_add_eq_or_of_lt n0.isLt, ← Nat.shiftLeft_add_eq_or_of_lt n1.isLt,
    ← Nat.shiftLeft_add_eq_or_of_lt n2.isLt]
  simp only [Nat.shiftLeft_eq]
  omega

theorem nibbles4_inj {a3 a2 a1 a0 b3 b2 b1 b0 : Nibble} :
    nibbles4 a3 a2 a1 a0 = nibbles4 b3 b2 b1 b0 ↔ a3 = b3 ∧ a2 = b2 ∧ a1 = b1 ∧ a0 = b0 := by
  constructor
  · intro h
    have := congrArg BitVec.toNat h
    rw [nibbles4_toNat, nibbles4_toNat] at this
    have := a3.isLt; have := a2.isLt; have := a1.isLt; have := a0.isLt
    have := b3.isLt; have := b2.isLt; have := b1.isLt; have := b0.isLt
    refine ⟨BitVec.eq_of_toNat_eq ?_, BitVec.eq_of_toNat_eq ?_, BitVec.eq_of_toNat_eq ?_, BitVec.eq_of_toNat_eq ?_⟩ <;> omega
  · rintro ⟨rfl, rfl, rfl, rfl⟩; rfl

theorem nibbles4_and (a3 a2 a1 a0 b3 b2 b1 b0 : Nibble) :
    nibbles4 a3 a2 a1 a0 &&& nibbles4 b3 b2 b1 b0 = nibbles4 (a3 &&& b3) (a2 &&& b2) (a1 &&& b1) (a0 &&& b0) := by
  have h : (((a3 ++ a2) ++ a1) ++ a0) &&& (((b3 ++ b2) ++ b1) ++ b0) =
      (((a3 &&& b3) ++ (a2 &&& b2)) ++ (a1 &&& b1)) ++ (a0 &&& b0) := by
    simp only [BitVec.and_append]
  exact h

/-- Every word is its four nibbles, as the decoder reads them. -/
theorem nibbles4_fieldsOf (w : Word) :
    nibbles4 (fieldsOf w).opcode (fieldsOf w).op1 (fieldsOf w).op2 (fieldsOf w).op3 = w := by
  apply BitVec.eq_of_toNat_eq
  rw [nibbles4_toNat]
  simp [fieldsOf, Nat.shiftRight_eq_div_pow]
  omega

/-- What the decoder extracts from four nibbles. -/
theorem fieldsOf_nibbles4 (n3 n2 n1 n0 : Nibble) :
    fieldsOf (nibbles4 n3 n2 n1 n0) =
      { opcode := n3, op1 := n2, op2 := n1, op3 := n0, byteOperand := n1 ++ n0, addressOperand := n2 ++ n1 ++ n0 } := by
  have := n3.isLt; have := n2.isLt; have := n1.isLt; have := n0.isLt
  simp only [fieldsOf, Fields.mk.injEq]
  refine ⟨?_, ?_, ?_, ?_, ?_, ?_⟩ <;> apply BitVec.eq_of_toNat_eq <;>
    simp only [BitVec.extractLsb'_toNat, nibbles4_toNat, BitVec.toNat_append, Nat.shiftRight_eq_div_pow] <;>
    try rw [← Nat.shiftLeft_add_eq_or_of_lt n0.isLt, Nat.shiftLeft_eq]
  all_goals try rw [← Nat.shiftLeft_add_eq_or_of_lt n1.isLt, Nat.shiftLeft_eq]
  all_goals omega

/-- A byte operand is its two nibbles. -/
theorem byte_nibbles (v : Byte) : ∃ n1 n0 : Nibble, v = n1 ++ n0 :=
  ⟨v.extractLsb' 4 4, v.extractLsb' 0 4, by
    apply BitVec.eq_of_toNat_eq
    rw [BitVec.toNat_append, ← Nat.shiftLeft_add_eq_or_of_lt (BitVec.isLt _)]
    simp [Nat.shiftLeft_eq, Nat.shiftRight_eq_div_pow]
    have := v.isLt
    omega⟩

/-- An address operand is its three nibbles. -/
theorem addr_nibbles (v : Addr12) : ∃ n2 n1 n0 : Nibble, v = n2 ++ n1 ++ n0 :=
  ⟨v.extractLsb' 8 4, v.extractLsb' 4 4, v.extractLsb' 0 4, by
    apply BitVec.eq_of_toNat_eq
    rw [BitVec.toNat_append, BitVec.toNat_append, ← Nat.shiftLeft_add_eq_or_of_lt (BitVec.isLt _),
      ← Nat.shiftLeft_add_eq_or_of_lt (BitVec.isLt _)]
    simp [Nat.shiftLeft_eq, Nat.shiftRight_eq_div_pow]
    have := v.isLt
    omega⟩

theorem packNibbles_eq (o : Opcode) (op1 op2 op3 : Nibble) : packNibbles o op1 op2 op3 = nibbles4 o.code op1 op2 op3 := rfl

theorem encode_store (op1 n1 n0 : Nibble) : encode (.store op1 (n1 ++ n0)) = nibbles4 0x0 op1 n1 n0 := by
  apply BitVec.eq_of_toNat_eq
  simp only [encode, Opcode.code, nibbles4, BitVec.toNat_append, Nat.shiftLeft_or_distrib, ← Nat.shiftLeft_add, Nat.or_assoc]

theorem encode_jump (n2 n1 n0 : Nibble) : encode (.jump (n2 ++ n1 ++ n0)) = nibbles4 0x5 n2 n1 n0 := by
  apply BitVec.eq_of_toNat_eq
  simp only [encode, Opcode.code, nibbles4, BitVec.toNat_append, Nat.shiftLeft_or_distrib, ← Nat.shiftLeft_add, Nat.or_assoc]

theorem encode_setA (n2 n1 n0 : Nibble) : encode (.setA (n2 ++ n1 ++ n0)) = nibbles4 0xA n2 n1 n0 := by
  apply BitVec.eq_of_toNat_eq
  simp only [encode, Opcode.code, nibbles4, BitVec.toNat_append, Nat.shiftLeft_or_distrib, ← Nat.shiftLeft_add, Nat.or_assoc]

end Sys2Proof
end

