-- ==== Sys2Proof/Laws/Memory.lean ====
section
/-! SUPPORT. The laws of the byte memories: read after write, the canonical form, and what a load leaves. -/

namespace Sys2Proof.Machine

theorem Memory.read_cons (a b : Nat) (v : Byte) (rest : Memory) (fresh : Memory.read rest a = Memory.blank) :
    Memory.read (Memory.cons a v rest) b = if b = a then v else Memory.read rest b := by
  unfold Memory.cons
  split
  · split
    · subst_vars; exact fresh
    · rfl
  · rfl

/-- Below the lowest listed address every byte is blank. -/
theorem Memory.read_below {lo a : Nat} {mem : Memory} (wf : Memory.wfFrom lo mem = true) (h : a < lo) :
    Memory.read mem a = Memory.blank := by
  induction mem generalizing lo with
  | nil => rfl
  | cons cell rest ih =>
    obtain ⟨b, v⟩ := cell
    simp only [Memory.wfFrom, Bool.and_eq_true, decide_eq_true_eq] at wf
    simp only [Memory.read]
    rw [if_neg (by omega)]
    exact ih wf.2 (by omega)

theorem Memory.wfFrom_mono {lo lo' : Nat} {mem : Memory} (wf : Memory.wfFrom lo mem = true) (h : lo' ≤ lo) :
    Memory.wfFrom lo' mem = true := by
  cases mem with
  | nil => rfl
  | cons cell rest =>
    simp only [Memory.wfFrom, Bool.and_eq_true, decide_eq_true_eq] at wf ⊢
    exact ⟨⟨by omega, wf.1.2⟩, wf.2⟩

theorem Memory.wfFrom_cons {lo a : Nat} {v : Byte} {rest : Memory} (le : lo ≤ a)
    (wf : Memory.wfFrom (a + 1) rest = true) : Memory.wfFrom lo (Memory.cons a v rest) = true := by
  unfold Memory.cons
  split
  · exact Memory.wfFrom_mono wf (by omega)
  · simp_all [Memory.wfFrom]

/-- A store keeps the canonical form. -/
theorem Memory.wfFrom_write {lo a : Nat} {mem : Memory} (v : Byte) (le : lo ≤ a)
    (wf : Memory.wfFrom lo mem = true) : Memory.wfFrom lo (Memory.write mem a v) = true := by
  induction mem generalizing lo with
  | nil => exact Memory.wfFrom_cons le rfl
  | cons cell rest ih =>
    obtain ⟨b, u⟩ := cell
    have wf' := wf
    simp only [Memory.wfFrom, Bool.and_eq_true, decide_eq_true_eq] at wf
    simp only [Memory.write]
    split
    · refine Memory.wfFrom_cons le ?_
      simp only [Memory.wfFrom, Bool.and_eq_true, decide_eq_true_eq]
      exact ⟨⟨by omega, wf.1.2⟩, wf.2⟩
    · split
      · subst_vars; exact Memory.wfFrom_cons le wf.2
      · simp only [Memory.wfFrom, Bool.and_eq_true, decide_eq_true_eq]
        exact ⟨wf.1, ih (by omega) wf.2⟩

theorem Memory.wf_write {mem : Memory} (a : Nat) (v : Byte) (wf : Memory.wf mem = true) :
    Memory.wf (Memory.write mem a v) = true := Memory.wfFrom_write v (Nat.zero_le a) wf

/-- Both memories right after reset are in canonical form. -/
theorem Memory.wf_reset : Memory.wf State.reset.ram = true ∧ Memory.wf State.reset.rom = true := ⟨rfl, rfl⟩

/-- Read after write, in a memory in canonical form. -/
theorem Memory.read_writeFrom {lo a : Nat} {mem : Memory} (b : Nat) (v : Byte)
    (wf : Memory.wfFrom lo mem = true) :
    Memory.read (Memory.write mem a v) b = if b = a then v else Memory.read mem b := by
  induction mem generalizing lo with
  | nil => exact Memory.read_cons a b v [] rfl
  | cons cell rest ih =>
    obtain ⟨c, u⟩ := cell
    have wf' := wf
    simp only [Memory.wfFrom, Bool.and_eq_true, decide_eq_true_eq] at wf
    simp only [Memory.write]
    split
    next h =>
      refine Memory.read_cons a b v _ ?_
      have low : Memory.wfFrom c ((c, u) :: rest) = true := by
        simp only [Memory.wfFrom, Bool.and_eq_true, decide_eq_true_eq]
        exact ⟨⟨le_refl c, wf.1.2⟩, wf.2⟩
      exact Memory.read_below low h
    next h =>
      split
      next same =>
        subst same
        rw [Memory.read_cons a b v rest (Memory.read_below wf.2 (by omega))]
        simp only [Memory.read]
        split <;> simp [*]
      next other =>
        simp only [Memory.read]
        rw [ih wf.2]
        split
        · rw [if_neg (by omega)]
        · rfl

theorem Memory.read_write {mem : Memory} (a b : Nat) (v : Byte) (wf : Memory.wf mem = true) :
    Memory.read (Memory.write mem a v) b = if b = a then v else Memory.read mem b := Memory.read_writeFrom b v wf

/-- A store at an index of the memory lists no address outside it. -/
theorem Memory.within_write {mem : Memory} {size a : Nat} (v : Byte) (inside : Memory.within mem size = true)
    (h : a < size) : Memory.within (Memory.write mem a v) size = true := by
  have cons_within : ∀ rest : Memory, Memory.within rest size = true →
      Memory.within (Memory.cons a v rest) size = true := by
    intro rest hr
    unfold Memory.cons
    split
    · exact hr
    · simp only [Memory.within, List.all_cons, Bool.and_eq_true, decide_eq_true_eq] at hr ⊢
      exact ⟨h, hr⟩
  induction mem with
  | nil => exact cons_within [] rfl
  | cons cell rest ih =>
    obtain ⟨b, u⟩ := cell
    have tail : Memory.within rest size = true := by
      simp only [Memory.within, List.all_cons, Bool.and_eq_true] at inside ⊢
      exact inside.2
    simp only [Memory.write]
    split
    · exact cons_within _ inside
    · split
      · exact cons_within _ tail
      · have := ih tail
        simp only [Memory.within, List.all_cons, Bool.and_eq_true] at inside this ⊢
        exact ⟨inside.1, this⟩

/-- A load gives a memory in canonical form. -/
theorem Memory.wfFrom_ofBytes (a : Nat) (bytes : List Byte) : Memory.wfFrom a (Memory.ofBytes a bytes) = true := by
  induction bytes generalizing a with
  | nil => rfl
  | cons b rest ih => exact Memory.wfFrom_cons (le_refl a) (ih (a + 1))

theorem Memory.wf_ofBytes (bytes : List Byte) : Memory.wf (Memory.ofBytes 0 bytes) = true :=
  Memory.wfFrom_ofBytes 0 bytes

theorem Memory.within_ofBytes (a : Nat) (bytes : List Byte) {size : Nat} (h : a + bytes.length ≤ size) :
    Memory.within (Memory.ofBytes a bytes) size = true := by
  induction bytes generalizing a with
  | nil => rfl
  | cons b rest ih =>
    have tail := ih (a + 1) (by simp at h; omega)
    simp only [Memory.ofBytes, Memory.cons]
    split
    · exact tail
    · simp only [Memory.within, List.all_cons, Bool.and_eq_true, decide_eq_true_eq] at tail ⊢
      simp at h
      exact ⟨by omega, tail⟩

/-- The bytes a load leaves: the sequence from the offset on, and blank elsewhere. -/
theorem Memory.read_ofBytes (a b : Nat) (bytes : List Byte) :
    Memory.read (Memory.ofBytes a bytes) b = if a ≤ b then bytes.getD (b - a) Memory.blank else Memory.blank := by
  induction bytes generalizing a with
  | nil => simp [Memory.ofBytes, Memory.read]
  | cons c rest ih =>
    have low := Memory.read_below (Memory.wfFrom_ofBytes (a + 1) rest) (Nat.lt_succ_self a)
    simp only [Memory.ofBytes]
    rw [Memory.read_cons a b c _ low, ih]
    by_cases h : b = a
    · subst h; simp
    · rw [if_neg h]
      by_cases h' : a ≤ b
      · obtain ⟨k, rfl⟩ : ∃ k, b = a + 1 + k := ⟨b - (a + 1), by omega⟩
        have : a + 1 + k - a = k + 1 := by omega
        simp [this, show a ≤ a + 1 + k by omega]
      · rw [if_neg (by omega), if_neg h']

/-- Memories in canonical form with the same bytes are the same list. -/
theorem Memory.eq_of_read_eqFrom {lo : Nat} {m1 m2 : Memory} (wf1 : Memory.wfFrom lo m1 = true)
    (wf2 : Memory.wfFrom lo m2 = true) (same : ∀ a, Memory.read m1 a = Memory.read m2 a) : m1 = m2 := by
  induction m1 generalizing lo m2 with
  | nil =>
    cases m2 with
    | nil => rfl
    | cons cell rest =>
      obtain ⟨b, u⟩ := cell
      simp only [Memory.wfFrom, Bool.and_eq_true, bne_iff_ne] at wf2
      have := same b
      simp only [Memory.read, if_true] at this
      exact absurd this.symm wf2.1.2
  | cons cell rest ih =>
    obtain ⟨b, u⟩ := cell
    have wf1' := wf1
    simp only [Memory.wfFrom, Bool.and_eq_true, bne_iff_ne, decide_eq_true_eq] at wf1
    cases m2 with
    | nil =>
      have := same b
      simp only [Memory.read, if_true] at this
      exact absurd this wf1.1.2
    | cons cell' rest' =>
      obtain ⟨c, v⟩ := cell'
      simp only [Memory.wfFrom, Bool.and_eq_true, bne_iff_ne, decide_eq_true_eq] at wf2
      have atB := same b
      have atC := same c
      simp only [Memory.read, if_true] at atB atC
      have bc : b = c := by
        rcases Nat.lt_trichotomy b c with h | h | h
        · rw [if_neg (by omega), Memory.read_below wf2.2 (by omega)] at atB
          exact absurd atB wf1.1.2
        · exact h
        · rw [if_neg (by omega), Memory.read_below wf1.2 (by omega)] at atC
          exact absurd atC.symm wf2.1.2
      subst bc
      simp only [if_true] at atB
      subst atB
      congr 1
      refine ih wf1.2 wf2.2 fun a => ?_
      rcases Nat.lt_or_ge b a with h | h
      · have := same a
        simp only [Memory.read] at this
        rwa [if_neg (by omega), if_neg (by omega)] at this
      · rw [Memory.read_below wf1.2 (by omega), Memory.read_below wf2.2 (by omega)]

theorem Memory.eq_of_read_eq {m1 m2 : Memory} (wf1 : Memory.wf m1 = true) (wf2 : Memory.wf m2 = true)
    (same : ∀ a, Memory.read m1 a = Memory.read m2 a) : m1 = m2 := Memory.eq_of_read_eqFrom wf1 wf2 same

end Sys2Proof.Machine
end

