-- ==== Sys2Proof/Laws/State.lean ====
section
/-! SUPPORT. What each single-field update of State does to each field, so that no proof unfolds a record update. -/

namespace Sys2Proof.Machine

/-! setReg -/

@[simp] theorem State.setReg_cfg (s : State) (r : RegIx) (v : Byte) : (s.setReg r v).cfg = s.cfg := rfl
@[simp] theorem State.setReg_x (s : State) (r : RegIx) (v : Byte) : (s.setReg r v).x = s.x.set r.val v r.isLt := rfl
@[simp] theorem State.setReg_pc (s : State) (r : RegIx) (v : Byte) : (s.setReg r v).pc = s.pc := rfl
@[simp] theorem State.setReg_t (s : State) (r : RegIx) (v : Byte) : (s.setReg r v).t = s.t := rfl
@[simp] theorem State.setReg_a (s : State) (r : RegIx) (v : Byte) : (s.setReg r v).a = s.a := rfl
@[simp] theorem State.setReg_m (s : State) (r : RegIx) (v : Byte) : (s.setReg r v).m = s.m := rfl
@[simp] theorem State.setReg_run (s : State) (r : RegIx) (v : Byte) : (s.setReg r v).run = s.run := rfl
@[simp] theorem State.setReg_icount (s : State) (r : RegIx) (v : Byte) : (s.setReg r v).icount = s.icount := rfl
@[simp] theorem State.setReg_plen (s : State) (r : RegIx) (v : Byte) : (s.setReg r v).plen = s.plen := rfl
@[simp] theorem State.setReg_ram (s : State) (r : RegIx) (v : Byte) : (s.setReg r v).ram = s.ram := rfl
@[simp] theorem State.setReg_rom (s : State) (r : RegIx) (v : Byte) : (s.setReg r v).rom = s.rom := rfl
@[simp] theorem State.setReg_disp (s : State) (r : RegIx) (v : Byte) : (s.setReg r v).disp = s.disp := rfl
@[simp] theorem State.setReg_keys (s : State) (r : RegIx) (v : Byte) : (s.setReg r v).keys = s.keys := rfl
@[simp] theorem State.setReg_keyDraws (s : State) (r : RegIx) (v : Byte) : (s.setReg r v).keyDraws = s.keyDraws := rfl

/-! setTimer -/

@[simp] theorem State.setTimer_cfg (s : State) (v : Byte) : (s.setTimer v).cfg = s.cfg := rfl
@[simp] theorem State.setTimer_x (s : State) (v : Byte) : (s.setTimer v).x = s.x := rfl
@[simp] theorem State.setTimer_pc (s : State) (v : Byte) : (s.setTimer v).pc = s.pc := rfl
@[simp] theorem State.setTimer_t (s : State) (v : Byte) : (s.setTimer v).t = v := rfl
@[simp] theorem State.setTimer_a (s : State) (v : Byte) : (s.setTimer v).a = s.a := rfl
@[simp] theorem State.setTimer_m (s : State) (v : Byte) : (s.setTimer v).m = s.m := rfl
@[simp] theorem State.setTimer_run (s : State) (v : Byte) : (s.setTimer v).run = s.run := rfl
@[simp] theorem State.setTimer_icount (s : State) (v : Byte) : (s.setTimer v).icount = s.icount := rfl
@[simp] theorem State.setTimer_plen (s : State) (v : Byte) : (s.setTimer v).plen = s.plen := rfl
@[simp] theorem State.setTimer_ram (s : State) (v : Byte) : (s.setTimer v).ram = s.ram := rfl
@[simp] theorem State.setTimer_rom (s : State) (v : Byte) : (s.setTimer v).rom = s.rom := rfl
@[simp] theorem State.setTimer_disp (s : State) (v : Byte) : (s.setTimer v).disp = s.disp := rfl
@[simp] theorem State.setTimer_keys (s : State) (v : Byte) : (s.setTimer v).keys = s.keys := rfl
@[simp] theorem State.setTimer_keyDraws (s : State) (v : Byte) : (s.setTimer v).keyDraws = s.keyDraws := rfl

/-! setAddr -/

@[simp] theorem State.setAddr_cfg (s : State) (v : Word) : (s.setAddr v).cfg = s.cfg := rfl
@[simp] theorem State.setAddr_x (s : State) (v : Word) : (s.setAddr v).x = s.x := rfl
@[simp] theorem State.setAddr_pc (s : State) (v : Word) : (s.setAddr v).pc = s.pc := rfl
@[simp] theorem State.setAddr_t (s : State) (v : Word) : (s.setAddr v).t = s.t := rfl
@[simp] theorem State.setAddr_a (s : State) (v : Word) : (s.setAddr v).a = v := rfl
@[simp] theorem State.setAddr_m (s : State) (v : Word) : (s.setAddr v).m = s.m := rfl
@[simp] theorem State.setAddr_run (s : State) (v : Word) : (s.setAddr v).run = s.run := rfl
@[simp] theorem State.setAddr_icount (s : State) (v : Word) : (s.setAddr v).icount = s.icount := rfl
@[simp] theorem State.setAddr_plen (s : State) (v : Word) : (s.setAddr v).plen = s.plen := rfl
@[simp] theorem State.setAddr_ram (s : State) (v : Word) : (s.setAddr v).ram = s.ram := rfl
@[simp] theorem State.setAddr_rom (s : State) (v : Word) : (s.setAddr v).rom = s.rom := rfl
@[simp] theorem State.setAddr_disp (s : State) (v : Word) : (s.setAddr v).disp = s.disp := rfl
@[simp] theorem State.setAddr_keys (s : State) (v : Word) : (s.setAddr v).keys = s.keys := rfl
@[simp] theorem State.setAddr_keyDraws (s : State) (v : Word) : (s.setAddr v).keyDraws = s.keyDraws := rfl

/-! setSelect -/

@[simp] theorem State.setSelect_cfg (s : State) (v : Bool) : (s.setSelect v).cfg = s.cfg := rfl
@[simp] theorem State.setSelect_x (s : State) (v : Bool) : (s.setSelect v).x = s.x := rfl
@[simp] theorem State.setSelect_pc (s : State) (v : Bool) : (s.setSelect v).pc = s.pc := rfl
@[simp] theorem State.setSelect_t (s : State) (v : Bool) : (s.setSelect v).t = s.t := rfl
@[simp] theorem State.setSelect_a (s : State) (v : Bool) : (s.setSelect v).a = s.a := rfl
@[simp] theorem State.setSelect_m (s : State) (v : Bool) : (s.setSelect v).m = v := rfl
@[simp] theorem State.setSelect_run (s : State) (v : Bool) : (s.setSelect v).run = s.run := rfl
@[simp] theorem State.setSelect_icount (s : State) (v : Bool) : (s.setSelect v).icount = s.icount := rfl
@[simp] theorem State.setSelect_plen (s : State) (v : Bool) : (s.setSelect v).plen = s.plen := rfl
@[simp] theorem State.setSelect_ram (s : State) (v : Bool) : (s.setSelect v).ram = s.ram := rfl
@[simp] theorem State.setSelect_rom (s : State) (v : Bool) : (s.setSelect v).rom = s.rom := rfl
@[simp] theorem State.setSelect_disp (s : State) (v : Bool) : (s.setSelect v).disp = s.disp := rfl
@[simp] theorem State.setSelect_keys (s : State) (v : Bool) : (s.setSelect v).keys = s.keys := rfl
@[simp] theorem State.setSelect_keyDraws (s : State) (v : Bool) : (s.setSelect v).keyDraws = s.keyDraws := rfl

/-! toggleSelect -/

@[simp] theorem State.toggleSelect_cfg (s : State) : s.toggleSelect.cfg = s.cfg := rfl
@[simp] theorem State.toggleSelect_x (s : State) : s.toggleSelect.x = s.x := rfl
@[simp] theorem State.toggleSelect_pc (s : State) : s.toggleSelect.pc = s.pc := rfl
@[simp] theorem State.toggleSelect_t (s : State) : s.toggleSelect.t = s.t := rfl
@[simp] theorem State.toggleSelect_a (s : State) : s.toggleSelect.a = s.a := rfl
@[simp] theorem State.toggleSelect_m (s : State) : s.toggleSelect.m = !s.m := rfl
@[simp] theorem State.toggleSelect_run (s : State) : s.toggleSelect.run = s.run := rfl
@[simp] theorem State.toggleSelect_icount (s : State) : s.toggleSelect.icount = s.icount := rfl
@[simp] theorem State.toggleSelect_plen (s : State) : s.toggleSelect.plen = s.plen := rfl
@[simp] theorem State.toggleSelect_ram (s : State) : s.toggleSelect.ram = s.ram := rfl
@[simp] theorem State.toggleSelect_rom (s : State) : s.toggleSelect.rom = s.rom := rfl
@[simp] theorem State.toggleSelect_disp (s : State) : s.toggleSelect.disp = s.disp := rfl
@[simp] theorem State.toggleSelect_keys (s : State) : s.toggleSelect.keys = s.keys := rfl
@[simp] theorem State.toggleSelect_keyDraws (s : State) : s.toggleSelect.keyDraws = s.keyDraws := rfl

/-! commit -/

@[simp] theorem State.commit_cfg (s : State) (p : Word) : (s.commit p).cfg = s.cfg := rfl
@[simp] theorem State.commit_x (s : State) (p : Word) : (s.commit p).x = s.x := rfl
@[simp] theorem State.commit_pc (s : State) (p : Word) : (s.commit p).pc = p := rfl
@[simp] theorem State.commit_t (s : State) (p : Word) : (s.commit p).t = s.t := rfl
@[simp] theorem State.commit_a (s : State) (p : Word) : (s.commit p).a = s.a := rfl
@[simp] theorem State.commit_m (s : State) (p : Word) : (s.commit p).m = s.m := rfl
@[simp] theorem State.commit_run (s : State) (p : Word) : (s.commit p).run = s.run := rfl
@[simp] theorem State.commit_icount (s : State) (p : Word) : (s.commit p).icount = s.icount + 1 := rfl
@[simp] theorem State.commit_plen (s : State) (p : Word) : (s.commit p).plen = s.plen := rfl
@[simp] theorem State.commit_ram (s : State) (p : Word) : (s.commit p).ram = s.ram := rfl
@[simp] theorem State.commit_rom (s : State) (p : Word) : (s.commit p).rom = s.rom := rfl
@[simp] theorem State.commit_disp (s : State) (p : Word) : (s.commit p).disp = s.disp := rfl
@[simp] theorem State.commit_keys (s : State) (p : Word) : (s.commit p).keys = s.keys := rfl
@[simp] theorem State.commit_keyDraws (s : State) (p : Word) : (s.commit p).keyDraws = s.keyDraws := rfl

/-! terminate -/

@[simp] theorem State.terminate_cfg (s : State) (q : Reason) : (s.terminate q).cfg = s.cfg := rfl
@[simp] theorem State.terminate_x (s : State) (q : Reason) : (s.terminate q).x = s.x := rfl
@[simp] theorem State.terminate_pc (s : State) (q : Reason) : (s.terminate q).pc = s.pc := rfl
@[simp] theorem State.terminate_t (s : State) (q : Reason) : (s.terminate q).t = s.t := rfl
@[simp] theorem State.terminate_a (s : State) (q : Reason) : (s.terminate q).a = s.a := rfl
@[simp] theorem State.terminate_m (s : State) (q : Reason) : (s.terminate q).m = s.m := rfl
@[simp] theorem State.terminate_run (s : State) (q : Reason) : (s.terminate q).run = .terminated q := rfl
@[simp] theorem State.terminate_icount (s : State) (q : Reason) : (s.terminate q).icount = s.icount := rfl
@[simp] theorem State.terminate_plen (s : State) (q : Reason) : (s.terminate q).plen = s.plen := rfl
@[simp] theorem State.terminate_ram (s : State) (q : Reason) : (s.terminate q).ram = s.ram := rfl
@[simp] theorem State.terminate_rom (s : State) (q : Reason) : (s.terminate q).rom = s.rom := rfl
@[simp] theorem State.terminate_disp (s : State) (q : Reason) : (s.terminate q).disp = s.disp := rfl
@[simp] theorem State.terminate_keys (s : State) (q : Reason) : (s.terminate q).keys = s.keys := rfl
@[simp] theorem State.terminate_keyDraws (s : State) (q : Reason) : (s.terminate q).keyDraws = s.keyDraws := rfl

/-! displayWrite -/

@[simp] theorem State.displayWrite_cfg (s : State) (k : Fin 64) (v : Byte) : (s.displayWrite k v).cfg = s.cfg := rfl
@[simp] theorem State.displayWrite_x (s : State) (k : Fin 64) (v : Byte) : (s.displayWrite k v).x = s.x := rfl
@[simp] theorem State.displayWrite_pc (s : State) (k : Fin 64) (v : Byte) : (s.displayWrite k v).pc = s.pc := rfl
@[simp] theorem State.displayWrite_t (s : State) (k : Fin 64) (v : Byte) : (s.displayWrite k v).t = s.t := rfl
@[simp] theorem State.displayWrite_a (s : State) (k : Fin 64) (v : Byte) : (s.displayWrite k v).a = s.a := rfl
@[simp] theorem State.displayWrite_m (s : State) (k : Fin 64) (v : Byte) : (s.displayWrite k v).m = s.m := rfl
@[simp] theorem State.displayWrite_run (s : State) (k : Fin 64) (v : Byte) : (s.displayWrite k v).run = s.run := rfl
@[simp] theorem State.displayWrite_icount (s : State) (k : Fin 64) (v : Byte) : (s.displayWrite k v).icount = s.icount := rfl
@[simp] theorem State.displayWrite_plen (s : State) (k : Fin 64) (v : Byte) : (s.displayWrite k v).plen = s.plen := rfl
@[simp] theorem State.displayWrite_ram (s : State) (k : Fin 64) (v : Byte) : (s.displayWrite k v).ram = s.ram := rfl
@[simp] theorem State.displayWrite_rom (s : State) (k : Fin 64) (v : Byte) : (s.displayWrite k v).rom = s.rom := rfl
@[simp] theorem State.displayWrite_disp (s : State) (k : Fin 64) (v : Byte) : (s.displayWrite k v).disp = s.disp.set k.val v k.isLt := rfl
@[simp] theorem State.displayWrite_keys (s : State) (k : Fin 64) (v : Byte) : (s.displayWrite k v).keys = s.keys := rfl
@[simp] theorem State.displayWrite_keyDraws (s : State) (k : Fin 64) (v : Byte) : (s.displayWrite k v).keyDraws = s.keyDraws := rfl

/-! displayClear -/

@[simp] theorem State.displayClear_cfg (s : State) : s.displayClear.cfg = s.cfg := rfl
@[simp] theorem State.displayClear_x (s : State) : s.displayClear.x = s.x := rfl
@[simp] theorem State.displayClear_pc (s : State) : s.displayClear.pc = s.pc := rfl
@[simp] theorem State.displayClear_t (s : State) : s.displayClear.t = s.t := rfl
@[simp] theorem State.displayClear_a (s : State) : s.displayClear.a = s.a := rfl
@[simp] theorem State.displayClear_m (s : State) : s.displayClear.m = s.m := rfl
@[simp] theorem State.displayClear_run (s : State) : s.displayClear.run = s.run := rfl
@[simp] theorem State.displayClear_icount (s : State) : s.displayClear.icount = s.icount := rfl
@[simp] theorem State.displayClear_plen (s : State) : s.displayClear.plen = s.plen := rfl
@[simp] theorem State.displayClear_ram (s : State) : s.displayClear.ram = s.ram := rfl
@[simp] theorem State.displayClear_rom (s : State) : s.displayClear.rom = s.rom := rfl
@[simp] theorem State.displayClear_disp (s : State) : s.displayClear.disp = Vector.replicate 64 0x20 := rfl
@[simp] theorem State.displayClear_keys (s : State) : s.displayClear.keys = s.keys := rfl
@[simp] theorem State.displayClear_keyDraws (s : State) : s.displayClear.keyDraws = s.keyDraws := rfl

/-! regFileReset -/

@[simp] theorem State.regFileReset_cfg (s : State) : s.regFileReset.cfg = s.cfg := rfl
@[simp] theorem State.regFileReset_x (s : State) : s.regFileReset.x = Vector.replicate 8 0x00 := rfl
@[simp] theorem State.regFileReset_pc (s : State) : s.regFileReset.pc = 0x0000 := rfl
@[simp] theorem State.regFileReset_t (s : State) : s.regFileReset.t = 0x00 := rfl
@[simp] theorem State.regFileReset_a (s : State) : s.regFileReset.a = 0x0000 := rfl
@[simp] theorem State.regFileReset_m (s : State) : s.regFileReset.m = false := rfl
@[simp] theorem State.regFileReset_run (s : State) : s.regFileReset.run = s.run := rfl
@[simp] theorem State.regFileReset_icount (s : State) : s.regFileReset.icount = s.icount := rfl
@[simp] theorem State.regFileReset_plen (s : State) : s.regFileReset.plen = s.plen := rfl
@[simp] theorem State.regFileReset_ram (s : State) : s.regFileReset.ram = s.ram := rfl
@[simp] theorem State.regFileReset_rom (s : State) : s.regFileReset.rom = s.rom := rfl
@[simp] theorem State.regFileReset_disp (s : State) : s.regFileReset.disp = s.disp := rfl
@[simp] theorem State.regFileReset_keys (s : State) : s.regFileReset.keys = s.keys := rfl
@[simp] theorem State.regFileReset_keyDraws (s : State) : s.regFileReset.keyDraws = s.keyDraws := rfl

/-! machineReset -/

@[simp] theorem State.machineReset_cfg (s : State) : s.machineReset.cfg = s.cfg := rfl
@[simp] theorem State.machineReset_x (s : State) : s.machineReset.x = Vector.replicate 8 0x00 := rfl
@[simp] theorem State.machineReset_pc (s : State) : s.machineReset.pc = 0x0000 := rfl
@[simp] theorem State.machineReset_t (s : State) : s.machineReset.t = 0x00 := rfl
@[simp] theorem State.machineReset_a (s : State) : s.machineReset.a = 0x0000 := rfl
@[simp] theorem State.machineReset_m (s : State) : s.machineReset.m = false := rfl
@[simp] theorem State.machineReset_run (s : State) : s.machineReset.run = .running := rfl
@[simp] theorem State.machineReset_icount (s : State) : s.machineReset.icount = 0 := rfl
@[simp] theorem State.machineReset_plen (s : State) : s.machineReset.plen = s.plen := rfl
@[simp] theorem State.machineReset_ram (s : State) : s.machineReset.ram = [] := rfl
@[simp] theorem State.machineReset_rom (s : State) : s.machineReset.rom = s.rom := rfl
@[simp] theorem State.machineReset_disp (s : State) : s.machineReset.disp = Vector.replicate 64 0x20 := rfl
@[simp] theorem State.machineReset_keys (s : State) : s.machineReset.keys = s.keys := rfl
@[simp] theorem State.machineReset_keyDraws (s : State) : s.machineReset.keyDraws = s.keyDraws := rfl

/-! poke -/

@[simp] theorem State.poke_cfg (s : State) (sp : Space) (b : Nat) (v : Byte) : (s.poke sp b v).cfg = s.cfg := by cases sp <;> rfl
@[simp] theorem State.poke_x (s : State) (sp : Space) (b : Nat) (v : Byte) : (s.poke sp b v).x = s.x := by cases sp <;> rfl
@[simp] theorem State.poke_pc (s : State) (sp : Space) (b : Nat) (v : Byte) : (s.poke sp b v).pc = s.pc := by cases sp <;> rfl
@[simp] theorem State.poke_t (s : State) (sp : Space) (b : Nat) (v : Byte) : (s.poke sp b v).t = s.t := by cases sp <;> rfl
@[simp] theorem State.poke_a (s : State) (sp : Space) (b : Nat) (v : Byte) : (s.poke sp b v).a = s.a := by cases sp <;> rfl
@[simp] theorem State.poke_m (s : State) (sp : Space) (b : Nat) (v : Byte) : (s.poke sp b v).m = s.m := by cases sp <;> rfl
@[simp] theorem State.poke_run (s : State) (sp : Space) (b : Nat) (v : Byte) : (s.poke sp b v).run = s.run := by cases sp <;> rfl
@[simp] theorem State.poke_icount (s : State) (sp : Space) (b : Nat) (v : Byte) : (s.poke sp b v).icount = s.icount := by cases sp <;> rfl
@[simp] theorem State.poke_plen (s : State) (sp : Space) (b : Nat) (v : Byte) : (s.poke sp b v).plen = s.plen := by cases sp <;> rfl
@[simp] theorem State.poke_disp (s : State) (sp : Space) (b : Nat) (v : Byte) : (s.poke sp b v).disp = s.disp := by cases sp <;> rfl
@[simp] theorem State.poke_keys (s : State) (sp : Space) (b : Nat) (v : Byte) : (s.poke sp b v).keys = s.keys := by cases sp <;> rfl
@[simp] theorem State.poke_keyDraws (s : State) (sp : Space) (b : Nat) (v : Byte) : (s.poke sp b v).keyDraws = s.keyDraws := by cases sp <;> rfl

/-! dataStore -/

@[simp] theorem State.dataStore_cfg (s : State) (b : Nat) (v : Byte) : (s.dataStore b v).cfg = s.cfg := State.poke_cfg s _ b v
@[simp] theorem State.dataStore_x (s : State) (b : Nat) (v : Byte) : (s.dataStore b v).x = s.x := State.poke_x s _ b v
@[simp] theorem State.dataStore_pc (s : State) (b : Nat) (v : Byte) : (s.dataStore b v).pc = s.pc := State.poke_pc s _ b v
@[simp] theorem State.dataStore_t (s : State) (b : Nat) (v : Byte) : (s.dataStore b v).t = s.t := State.poke_t s _ b v
@[simp] theorem State.dataStore_a (s : State) (b : Nat) (v : Byte) : (s.dataStore b v).a = s.a := State.poke_a s _ b v
@[simp] theorem State.dataStore_m (s : State) (b : Nat) (v : Byte) : (s.dataStore b v).m = s.m := State.poke_m s _ b v
@[simp] theorem State.dataStore_run (s : State) (b : Nat) (v : Byte) : (s.dataStore b v).run = s.run := State.poke_run s _ b v
@[simp] theorem State.dataStore_icount (s : State) (b : Nat) (v : Byte) : (s.dataStore b v).icount = s.icount := State.poke_icount s _ b v
@[simp] theorem State.dataStore_plen (s : State) (b : Nat) (v : Byte) : (s.dataStore b v).plen = s.plen := State.poke_plen s _ b v
@[simp] theorem State.dataStore_disp (s : State) (b : Nat) (v : Byte) : (s.dataStore b v).disp = s.disp := State.poke_disp s _ b v
@[simp] theorem State.dataStore_keys (s : State) (b : Nat) (v : Byte) : (s.dataStore b v).keys = s.keys := State.poke_keys s _ b v
@[simp] theorem State.dataStore_keyDraws (s : State) (b : Nat) (v : Byte) : (s.dataStore b v).keyDraws = s.keyDraws := State.poke_keyDraws s _ b v

/-! keyTaken -/

@[simp] theorem State.keyTaken_cfg (s : State) : s.keyTaken.cfg = s.cfg := by unfold State.keyTaken; split <;> rfl
@[simp] theorem State.keyTaken_x (s : State) : s.keyTaken.x = s.x := by unfold State.keyTaken; split <;> rfl
@[simp] theorem State.keyTaken_pc (s : State) : s.keyTaken.pc = s.pc := by unfold State.keyTaken; split <;> rfl
@[simp] theorem State.keyTaken_t (s : State) : s.keyTaken.t = s.t := by unfold State.keyTaken; split <;> rfl
@[simp] theorem State.keyTaken_a (s : State) : s.keyTaken.a = s.a := by unfold State.keyTaken; split <;> rfl
@[simp] theorem State.keyTaken_m (s : State) : s.keyTaken.m = s.m := by unfold State.keyTaken; split <;> rfl
@[simp] theorem State.keyTaken_run (s : State) : s.keyTaken.run = s.run := by unfold State.keyTaken; split <;> rfl
@[simp] theorem State.keyTaken_icount (s : State) : s.keyTaken.icount = s.icount := by unfold State.keyTaken; split <;> rfl
@[simp] theorem State.keyTaken_plen (s : State) : s.keyTaken.plen = s.plen := by unfold State.keyTaken; split <;> rfl
@[simp] theorem State.keyTaken_ram (s : State) : s.keyTaken.ram = s.ram := by unfold State.keyTaken; split <;> rfl
@[simp] theorem State.keyTaken_rom (s : State) : s.keyTaken.rom = s.rom := by unfold State.keyTaken; split <;> rfl
@[simp] theorem State.keyTaken_disp (s : State) : s.keyTaken.disp = s.disp := by unfold State.keyTaken; split <;> rfl

/-! tick -/

@[simp] theorem State.tick_cfg (s : State) : s.tick.cfg = s.cfg := by unfold State.tick; split <;> rfl
@[simp] theorem State.tick_x (s : State) : s.tick.x = s.x := by unfold State.tick; split <;> rfl
@[simp] theorem State.tick_pc (s : State) : s.tick.pc = s.pc := by unfold State.tick; split <;> rfl
@[simp] theorem State.tick_a (s : State) : s.tick.a = s.a := by unfold State.tick; split <;> rfl
@[simp] theorem State.tick_m (s : State) : s.tick.m = s.m := by unfold State.tick; split <;> rfl
@[simp] theorem State.tick_run (s : State) : s.tick.run = s.run := by unfold State.tick; split <;> rfl
@[simp] theorem State.tick_icount (s : State) : s.tick.icount = s.icount := by unfold State.tick; split <;> rfl
@[simp] theorem State.tick_plen (s : State) : s.tick.plen = s.plen := by unfold State.tick; split <;> rfl
@[simp] theorem State.tick_ram (s : State) : s.tick.ram = s.ram := by unfold State.tick; split <;> rfl
@[simp] theorem State.tick_rom (s : State) : s.tick.rom = s.rom := by unfold State.tick; split <;> rfl
@[simp] theorem State.tick_disp (s : State) : s.tick.disp = s.disp := by unfold State.tick; split <;> rfl
@[simp] theorem State.tick_keys (s : State) : s.tick.keys = s.keys := by unfold State.tick; split <;> rfl
@[simp] theorem State.tick_keyDraws (s : State) : s.tick.keyDraws = s.keyDraws := by unfold State.tick; split <;> rfl

/-! The two memories after a store, and what a read of the provider leaves -/

@[simp] theorem State.poke_ram_ram (s : State) (b : Nat) (v : Byte) : (s.poke .ram b v).ram = Memory.write s.ram b v := rfl
@[simp] theorem State.poke_ram_rom (s : State) (b : Nat) (v : Byte) : (s.poke .ram b v).rom = s.rom := rfl
@[simp] theorem State.poke_rom_rom (s : State) (b : Nat) (v : Byte) : (s.poke .rom b v).rom = Memory.write s.rom b v := rfl
@[simp] theorem State.poke_rom_ram (s : State) (b : Nat) (v : Byte) : (s.poke .rom b v).ram = s.ram := rfl

/-- A store selects the memory it stores to by M, which it does not change. -/
theorem State.dataStore_selected (s : State) (b : Nat) (v : Byte) : (s.dataStore b v).selected = s.selected := by
  simp [State.selected]

theorem State.dataStore_to_ram {s : State} (h : s.m = false) (b : Nat) (v : Byte) : s.dataStore b v = s.poke .ram b v := by
  simp [State.dataStore, State.selected, h]

theorem State.dataStore_to_rom {s : State} (h : s.m = true) (b : Nat) (v : Byte) : s.dataStore b v = s.poke .rom b v := by
  simp [State.dataStore, State.selected, h]

/-- Reading a register after a register write. -/
theorem State.reg_setReg (s : State) (r q : RegIx) (v : Byte) : (s.setReg r v).reg q = if r = q then v else s.reg q := by
  simp [State.reg, State.setReg, Vector.getElem_set, Fin.ext_iff]

/-- T after a tick (R215). -/
theorem State.tick_t (s : State) : s.tick.t = if 0 < s.t.toNat then s.t - 1 else s.t := by
  unfold State.tick; split <;> rfl

end Sys2Proof.Machine
end

