-- ==== Sys2Proof/Laws/Ops.lean ====
section
/-! SUPPORT. One lemma per shared operation: when a check passes, what it raises, what fetch, the arbiter's write, the
termination checks and the end of a handler can answer. -/

namespace Sys2Proof.Machine

/-! ### Except -/

@[simp] theorem except_ok_bind {α β : Type} (a : α) (f : α → Except Reason β) :
    ((Except.ok a : Except Reason α) >>= f) = f a := rfl

@[simp] theorem except_error_bind {α β : Type} (q : Reason) (f : α → Except Reason β) :
    ((Except.error q : Except Reason α) >>= f) = .error q := rfl

@[simp] theorem except_pure {α : Type} (a : α) : (pure a : Except Reason α) = .ok a := rfl

theorem except_bind_eq_ok {α β : Type} {x : Except Reason α} {f : α → Except Reason β} {b : β} :
    (x >>= f) = .ok b ↔ ∃ a, x = .ok a ∧ f a = .ok b := by
  cases x <;> simp

/-- A check that raised, or what came after it. -/
theorem except_bind_eq_error {α β : Type} {x : Except Reason α} {f : α → Except Reason β} {q : Reason} :
    (x >>= f) = .error q ↔ x = .error q ∨ ∃ a, x = .ok a ∧ f a = .error q := by
  cases x <;> simp

/-! ### Checks -/

@[simp] theorem require_true (q : Reason) : require true q = .ok () := rfl
@[simp] theorem require_false (q : Reason) : require false q = .error q := rfl

theorem require_eq_ok {c : Bool} {q : Reason} {u : Unit} : require c q = .ok u ↔ c = true := by
  cases c <;> simp

theorem require_eq_error {c : Bool} {q q' : Reason} : require c q = .error q' ↔ c = false ∧ q = q' := by
  cases c <;> simp

@[simp] theorem regOf_nibOf (r : RegIx) : regOf (nibOf r) = some r := by
  revert r; decide

theorem nibOf_toNat (r : RegIx) : (nibOf r).toNat = r.val := by
  revert r; decide

/-- A register field is valid exactly when it is one of the eight names (R94). -/
theorem regOf_eq_some {n : Nibble} {r : RegIx} : regOf n = some r ↔ n = nibOf r := by
  revert n r; decide

theorem regOf_eq_none {n : Nibble} : regOf n = none ↔ 7 < n.toNat := by
  revert n; decide

theorem exists_nibOf {n : Nibble} (h : n.toNat ≤ 7) : ∃ r, n = nibOf r := by
  revert n; decide

@[simp] theorem checkReg_nibOf (f : Field) (r : RegIx) : checkReg f (nibOf r) = .ok r := by
  simp [checkReg]

theorem checkReg_bad (f : Field) {n : Nibble} (h : 7 < n.toNat) : checkReg f n = .error (.fmtBadRegister f n) := by
  simp [checkReg, regOf_eq_none.2 h]

theorem checkReg_eq_ok {f : Field} {n : Nibble} {r : RegIx} : checkReg f n = .ok r ↔ n = nibOf r := by
  rw [← regOf_eq_some]
  unfold checkReg
  split <;> simp_all

@[simp] theorem checkZero_zero (f : Field) : checkZero f 0#4 = .ok () := rfl

theorem checkZero_bad (f : Field) {n : Nibble} (h : n ≠ 0) : checkZero f n = .error (.fmtNonzeroField f n) := by
  have h' : (n == 0) = false := by simpa using h
  simp only [checkZero, h', require_false]

theorem checkZero_eq_ok {f : Field} {n : Nibble} {u : Unit} : checkZero f n = .ok u ↔ n = 0 := by
  simp [checkZero, require_eq_ok]

/-- What a register check raises (R94). -/
theorem checkReg_eq_error {f : Field} {n : Nibble} {q : Reason} :
    checkReg f n = .error q ↔ 7 < n.toNat ∧ q = .fmtBadRegister f n := by
  rw [← regOf_eq_none]
  unfold checkReg
  cases regOf n <;> simp [eq_comm]

/-- What a must-be-zero check raises (R95). -/
theorem checkZero_eq_error {f : Field} {n : Nibble} {q : Reason} :
    checkZero f n = .error q ↔ n ≠ 0 ∧ q = .fmtNonzeroField f n := by
  simp [checkZero, require_eq_error, @eq_comm _ q]

/-- What JUMP's check raises (R96). -/
theorem checkEven_eq_error {target : Addr12} {q : Reason} :
    checkEven target = .error q ↔ target.toNat % 2 = 1 ∧ q = .fmtOddJumpTarget target := by
  simp [checkEven, require_eq_error, @eq_comm _ q]

/-- What DRAW's row check raises (R97). -/
theorem checkRow_eq_error {n : Nibble} {q : Reason} : checkRow n = .error q ↔ 7 < n.toNat ∧ q = .fmtBadRow n := by
  simp [checkRow, require_eq_error, @eq_comm _ q]

/-- What DRAW's column check raises (R97). -/
theorem checkCol_eq_error {n : Nibble} {q : Reason} : checkCol n = .error q ↔ 7 < n.toNat ∧ q = .fmtBadCol n := by
  simp [checkCol, require_eq_error, @eq_comm _ q]

/-- The operands of READ, WRITE, READ_KEYBOARD, READ_T and CONVERT_TO_BASE_10 pass exactly as R93 says. -/
theorem checkRegZeroZero_eq_ok {op1 op2 op3 : Nibble} {r : RegIx} :
    checkRegZeroZero op1 op2 op3 = .ok r ↔ op1 = nibOf r ∧ op2 = 0 ∧ op3 = 0 := by
  simp [checkRegZeroZero, except_bind_eq_ok, checkReg_eq_ok, checkZero_eq_ok]

/-- The operands of the skips and of CONVERT_BYTE_TO_ASCII pass exactly as R93 says. -/
theorem checkRegRegZero_eq_ok {op1 op2 op3 : Nibble} {r1 r2 : RegIx} :
    checkRegRegZero op1 op2 op3 = .ok (r1, r2) ↔ op1 = nibOf r1 ∧ op2 = nibOf r2 ∧ op3 = 0 := by
  simp [checkRegRegZero, except_bind_eq_ok, checkReg_eq_ok, checkZero_eq_ok]

/-- The operands of ADD and SUB pass exactly as R93 says. -/
theorem checkRegRegReg_eq_ok {op1 op2 op3 : Nibble} {r1 r2 r3 : RegIx} :
    checkRegRegReg op1 op2 op3 = .ok (r1, r2, r3) ↔ op1 = nibOf r1 ∧ op2 = nibOf r2 ∧ op3 = nibOf r3 := by
  simp [checkRegRegReg, except_bind_eq_ok, checkReg_eq_ok]

/-! ### The end of a handler -/

@[simp] theorem conclude_ok (s t : State) (p : Word) : conclude s (.ok (t, p)) = .next (t.commit p) := rfl
@[simp] theorem conclude_error (s : State) (q : Reason) : conclude s (.error q) = .next (s.terminate q) := rfl

/-- A handler's step either commits what the handler wrote, or records its reason and nothing else (R131, R132). -/
theorem conclude_cases {s t : State} {r : Except Reason (State × Word)} (h : conclude s r = .next t) :
    (∃ w p, r = .ok (w, p) ∧ t = w.commit p) ∨ ∃ q, r = .error q ∧ t = s.terminate q := by
  cases r with
  | ok wp => exact .inl ⟨wp.1, wp.2, rfl, by simpa [conclude] using h.symm⟩
  | error q => exact .inr ⟨q, rfl, by simpa using h.symm⟩

/-- A handler's step always answers a next state. -/
theorem conclude_next (s : State) (r : Except Reason (State × Word)) : ∃ t, conclude s r = .next t := by
  cases r with
  | ok wp => exact ⟨_, rfl⟩
  | error q => exact ⟨_, rfl⟩

/-! ### The arbiter's write -/

theorem checkWritable_eq_ok {s : State} {a : Nat} {u : Unit} :
    checkWritable s a = .ok u ↔ (s.m = true → s.cfg.romWritable = true) := by
  cases hm : s.m <;> simp [checkWritable, require_eq_ok, State.selected, hm]

theorem checkBounds_eq_ok {s : State} {a : Nat} {u : Unit} : checkBounds s a = .ok u ↔ a < s.sizeOf s.selected := by
  simp [checkBounds, require_eq_ok]

/-- What the read-only check raises (R69). -/
theorem checkWritable_eq_error {s : State} {a : Nat} {q : Reason} :
    checkWritable s a = .error q ↔ s.m = true ∧ s.cfg.romWritable = false ∧ q = .resourceRomReadOnly a := by
  cases hm : s.m <;> simp [checkWritable, require_eq_error, State.selected, hm, @eq_comm _ q]

/-- What the bounds check raises (R69). -/
theorem checkBounds_eq_error {s : State} {a : Nat} {q : Reason} :
    checkBounds s a = .error q ↔ s.sizeOf s.selected ≤ a ∧ q = .boundsData s.selected a := by
  simp [checkBounds, require_eq_error, @eq_comm _ q]

/-- A data write to ROM that is not writable (R69). -/
theorem checkWritable_bad {s : State} (a : Nat) (rom : s.m = true) (readOnly : s.cfg.romWritable = false) :
    checkWritable s a = .error (.resourceRomReadOnly a) := by
  have h : (s.selected == Space.ram || s.cfg.romWritable) = false := by simp [State.selected, rom, readOnly]
  simp only [checkWritable, h, require_false]

/-- A data write past the selected memory (R69). -/
theorem checkBounds_bad {s : State} {a : Nat} (h : s.sizeOf s.selected ≤ a) :
    checkBounds s a = .error (.boundsData s.selected a) := by
  have h' : decide (a < s.sizeOf s.selected) = false := by simpa using h
  simp only [checkBounds, h', require_false]

theorem State.selected_ram {s : State} (h : s.m = false) : s.selected = .ram := by simp [State.selected, h]
theorem State.selected_rom {s : State} (h : s.m = true) : s.selected = .rom := by simp [State.selected, h]

/-- A data write stores one byte into the selected memory, which must be writable and hold the address (R69). -/
theorem dataWrite_eq_ok {s t : State} {a : Nat} {v : Byte} :
    dataWrite s a v = .ok t ↔
      (s.m = true → s.cfg.romWritable = true) ∧ a < s.sizeOf s.selected ∧ t = s.poke s.selected a v := by
  simp [dataWrite, except_bind_eq_ok, checkWritable_eq_ok, checkBounds_eq_ok, State.dataStore, @eq_comm _ t]

/-! ### Fetch, and the termination checks -/

/-- A fetch needs an even pc and two ROM bytes, and gives the big-endian word there (R125, R70). -/
theorem fetch_eq_ok {s : State} {w : Word} :
    fetch s = .ok w ↔ s.pc.toNat % 2 = 0 ∧ s.pc.toNat + 1 < s.cfg.romSize ∧
      w = wordOfBytes (Memory.read s.rom s.pc.toNat) (Memory.read s.rom (s.pc.toNat + 1)) := by
  simp [fetch, except_bind_eq_ok, require_eq_ok, State.romByte, @eq_comm _ w]

/-- A step goes on to fetch when neither check A nor check B ends it (R122, R123). -/
theorem terminationCheck_eq_ok {s : State} {u : Unit} :
    terminationCheck s = .ok u ↔ ¬ (0 < s.icount ∧ s.pc = 0) ∧ s.pc.toNat < s.plen := by
  simp [terminationCheck, except_bind_eq_ok, require_eq_ok, Nat.pos_iff_ne_zero, imp_iff_not_or]

/-- The two faults of a fetch (R125). -/
theorem fetch_eq_error {s : State} {q : Reason} :
    fetch s = .error q ↔ (s.pc.toNat % 2 = 1 ∧ q = .fetchMisaligned s.pc) ∨
      (s.pc.toNat % 2 = 0 ∧ s.cfg.romSize ≤ s.pc.toNat + 1 ∧ q = .boundsFetch s.pc) := by
  simp [fetch, except_bind_eq_error, require_eq_error, require_eq_ok, @eq_comm _ q]

/-- The two normal halts, check A first (R122, R123). -/
theorem terminationCheck_eq_error {s : State} {q : Reason} :
    terminationCheck s = .error q ↔ (0 < s.icount ∧ s.pc = 0 ∧ q = .haltPcZero) ∨
      (¬ (0 < s.icount ∧ s.pc = 0) ∧ s.plen ≤ s.pc.toNat ∧ q = .haltOutOfProgram s.pc) := by
  simp [terminationCheck, except_bind_eq_error, require_eq_error, require_eq_ok, Nat.pos_iff_ne_zero, imp_iff_not_or,
    @eq_comm _ q, and_assoc]

/-- A terminated machine's step (R121). -/
theorem step_terminated {s : State} {q : Reason} (h : s.run = .terminated q) : step s = .next s := by
  simp [step, h]

/-- A step that check A or check B ends (R122, R123). -/
theorem step_check_fails {s : State} {q : Reason} (running : s.run = .running) (check : terminationCheck s = .error q) :
    step s = .next (s.terminate q) := by
  simp [step, running, check]

/-- A step whose fetch fails (R125). -/
theorem step_fetch_fails {s : State} {q : Reason} (running : s.run = .running) (check : terminationCheck s = .ok ())
    (fetched : fetch s = .error q) : step s = .next (s.terminate q) := by
  simp [step, running, check, fetched]

/-- A step that runs a handler (R120). -/
theorem step_runs {s : State} {w : Word} (running : s.run = .running) (check : terminationCheck s = .ok ())
    (fetched : fetch s = .ok w) : step s = exec (decodeWord w) s := by
  simp [step, running, check, fetched]

/-- Everything a step can do (R120): nothing, when Terminated; record one reason, from a termination check or the
fetch; or run the handler of the fetched word. -/
theorem step_cases (s : State) :
    (∃ q, s.run = .terminated q ∧ step s = .next s) ∨
    (s.run = .running ∧ ∃ q, (terminationCheck s = .error q ∨ terminationCheck s = .ok () ∧ fetch s = .error q) ∧
      step s = .next (s.terminate q)) ∨
    (s.run = .running ∧ terminationCheck s = .ok () ∧ ∃ w, fetch s = .ok w ∧ step s = exec (decodeWord w) s) := by
  unfold step
  cases hr : s.run with
  | terminated q => exact .inl ⟨q, rfl, rfl⟩
  | running =>
    cases hc : terminationCheck s with
    | error q => exact .inr (.inl ⟨rfl, q, .inl rfl, by simp⟩)
    | ok u =>
      cases hf : fetch s with
      | error q => exact .inr (.inl ⟨rfl, q, .inr ⟨rfl, rfl⟩, by simp⟩)
      | ok w => exact .inr (.inr ⟨rfl, rfl, w, rfl, by simp⟩)

end Sys2Proof.Machine
end

