-- ==== Sys2Proof/Laws/Exec.lean ====
section
/-! SUPPORT. One lemma per instruction: what its meaning answers when every check passes, over the shared operations. -/

namespace Sys2Proof.Machine

theorem execStore_valid (d : RegIx) (imm : Byte) (s : State) :
    execStore (nibOf d) imm s = .next ((s.setReg d imm).commit s.nextPc) := by
  simp [execStore]

theorem execAdd_valid (a b d : RegIx) (s : State) :
    execAdd (nibOf a) (nibOf b) (nibOf d) s = .next ((s.setReg d (s.reg a + s.reg b)).commit s.nextPc) := by
  simp [execAdd, checkRegRegReg]

theorem execSub_valid (a b d : RegIx) (s : State) :
    execSub (nibOf a) (nibOf b) (nibOf d) s = .next ((s.setReg d (s.reg a - s.reg b)).commit s.nextPc) := by
  simp [execSub, checkRegRegReg]

theorem execRead_valid (d : RegIx) (s : State) :
    execRead (nibOf d) 0 0 s = .next ((s.setReg d (s.dataRead s.a.toNat)).commit s.nextPc) := by
  simp [execRead, checkRegZeroZero, State.dataAddr]

theorem execWrite_valid (r : RegIx) (s : State) (writable : s.m = true → s.cfg.romWritable = true)
    (inside : s.a.toNat < s.sizeOf s.selected) :
    execWrite (nibOf r) 0 0 s = .next ((s.dataStore s.a.toNat (s.reg r)).commit s.nextPc) := by
  have := (dataWrite_eq_ok (v := s.reg r)).2 ⟨writable, inside, rfl⟩
  simp [execWrite, checkRegZeroZero, State.dataAddr, this, State.dataStore]

theorem execSwitchMemory_valid (s : State) :
    execSwitchMemory 0 0 0 s = .next (s.toggleSelect.commit s.nextPc) := rfl

theorem execSetA_valid (addr : Addr12) (s : State) :
    execSetA addr s = .next ((s.setAddr (addr.setWidth 16)).commit s.nextPc) := rfl

theorem execConvertToBase10_valid (r : RegIx) (s : State) (writable : s.m = true → s.cfg.romWritable = true)
    (inside : s.a.toNat + 2 < s.sizeOf s.selected) :
    execConvertToBase10 (nibOf r) 0 0 s =
      .next ((((s.dataStore s.a.toNat (decimalDigits (s.reg r)).1).dataStore (s.a.toNat + 1)
        (decimalDigits (s.reg r)).2.1).dataStore (s.a.toNat + 2) (decimalDigits (s.reg r)).2.2).commit s.nextPc) := by
  have ok0 : checkBounds s s.a.toNat = .ok () := checkBounds_eq_ok.2 (by omega)
  have ok1 : checkBounds s (s.a.toNat + 1) = .ok () := checkBounds_eq_ok.2 (by omega)
  have ok2 : checkBounds s (s.a.toNat + 2) = .ok () := checkBounds_eq_ok.2 inside
  have okw : checkWritable s s.a.toNat = .ok () := checkWritable_eq_ok.2 writable
  simp [execConvertToBase10, checkRegZeroZero, State.dataAddr, ok0, ok1, ok2, okw]

theorem execJump_valid {target : Addr12} (s : State) (even : target.toNat % 2 = 0) :
    execJump target s = .next (s.commit (target.setWidth 16)) := by
  simp [execJump, checkEven, even, jumpPc]

theorem execSkipEqual_valid (a b : RegIx) (s : State) :
    execSkipEqual (nibOf a) (nibOf b) 0 s = .next (s.commit (s.skipIf (s.regsEqual a b))) := by
  simp [execSkipEqual, checkRegRegZero]

theorem execSkipNotEqual_valid (a b : RegIx) (s : State) :
    execSkipNotEqual (nibOf a) (nibOf b) 0 s = .next (s.commit (s.skipIf (!s.regsEqual a b))) := by
  simp [execSkipNotEqual, checkRegRegZero]

theorem execReadKeyboard_valid (d : RegIx) (s : State) :
    execReadKeyboard (nibOf d) 0 0 s = .next ((s.keyTaken.setReg d s.keyIn).commit s.nextPc) := by
  simp [execReadKeyboard, checkRegZeroZero]

theorem execSetT_valid (op1 op2 : Nibble) (s : State) :
    execSetT op1 op2 0 s = .next ((s.setTimer (byteOperand op2 0)).commit s.nextPc) := by
  simp [execSetT]

theorem execReadT_valid (d : RegIx) (s : State) :
    execReadT (nibOf d) 0 0 s = .next ((s.setReg d s.t).commit s.nextPc) := by
  simp [execReadT, checkRegZeroZero]

theorem execConvertByteToAscii_valid (r d : RegIx) (s : State) (digit : (s.reg r).toNat ≤ 0xF) :
    execConvertByteToAscii (nibOf r) (nibOf d) 0 s = .next ((s.setReg d (asciiOfDigit (s.reg r))).commit s.nextPc) := by
  simp [execConvertByteToAscii, checkRegRegZero, digit]

theorem cellOf_nibOf (row col : RegIx) : cellOf (nibOf row) (nibOf col) = cellIndex row col := by
  revert row col; decide

theorem execDraw_valid (r row col : RegIx) (s : State) (char : (s.reg r).toNat ≤ 0x7F) :
    execDraw (nibOf r) (nibOf row) (nibOf col) s =
      .next ((s.displayWrite (cellIndex row col) (s.reg r)).commit s.nextPc) := by
  have h1 : row.val ≤ 7 := by omega
  have h2 : col.val ≤ 7 := by omega
  simp [execDraw, checkRow, checkCol, char, nibOf_toNat, h1, h2, cellOf_nibOf]

/-- Every instruction answers a next state, whatever the operands and the state. -/
theorem exec_next (i : Instr) (s : State) : ∃ t, exec i s = .next t := by
  cases i <;> (simp only [exec]; exact conclude_next s _)

/-- Everything an instruction can do, whatever its operands: record a reason and nothing else; write one register;
store one or three bytes where the arbiter lets it; change M, A, T or one display cell; or only move pc. -/
theorem exec_cases {i : Instr} {s t : State} (h : exec i s = .next t) :
    (∃ q, t = s.terminate q) ∨
    (∃ d v, i.opcode ∈ [Opcode.store, .add, .sub, .read, .readT, .convertByteToAscii] ∧
      t = (s.setReg d v).commit s.nextPc) ∨
    (∃ d, i.opcode = .readKeyboard ∧ t = (s.keyTaken.setReg d s.keyIn).commit s.nextPc) ∨
    (∃ v, i.opcode = .write ∧ (s.m = true → s.cfg.romWritable = true) ∧ s.a.toNat < s.sizeOf s.selected ∧
      t = (s.dataStore s.a.toNat v).commit s.nextPc) ∨
    (∃ v1 v2 v3, i.opcode = .convertToBase10 ∧ (s.m = true → s.cfg.romWritable = true) ∧
      s.a.toNat + 2 < s.sizeOf s.selected ∧
      t = (((s.dataStore s.a.toNat v1).dataStore (s.a.toNat + 1) v2).dataStore (s.a.toNat + 2) v3).commit s.nextPc) ∨
    (i.opcode = .switchMemory ∧ t = s.toggleSelect.commit s.nextPc) ∨
    (∃ addr, i = .setA addr ∧ t = (s.setAddr (addr.setWidth 16)).commit s.nextPc) ∨
    (∃ op2, i.opcode = .setT ∧ t = (s.setTimer (byteOperand op2 0)).commit s.nextPc) ∨
    (∃ k v, i.opcode = .draw ∧ v.toNat ≤ 0x7F ∧ t = (s.displayWrite k v).commit s.nextPc) ∨
    (∃ target, i = .jump target ∧ target.toNat % 2 = 0 ∧ t = s.commit (target.setWidth 16)) ∨
    (∃ a b, (∃ op3, i = .skipEqual (nibOf a) (nibOf b) op3) ∧ t = s.commit (s.skipIf (s.regsEqual a b))) ∨
    (∃ a b, (∃ op3, i = .skipNotEqual (nibOf a) (nibOf b) op3) ∧ t = s.commit (s.skipIf (!s.regsEqual a b))) := by
  cases i <;> simp only [exec] at h <;> rcases conclude_cases h with ⟨w, p, hok, rfl⟩ | ⟨q, -, rfl⟩ <;>
    first | exact .inl ⟨q, rfl⟩ | clear h
  case store =>
    simp only [except_bind_eq_ok, checkReg_eq_ok] at hok
    obtain ⟨d, rfl, hw⟩ := hok
    cases hw; exact .inr (.inl ⟨_, _, by simp [Instr.opcode], rfl⟩)
  case add | sub =>
    simp only [except_bind_eq_ok, Prod.exists, checkRegRegReg_eq_ok] at hok
    obtain ⟨a, b, d, -, hw⟩ := hok
    cases hw; exact .inr (.inl ⟨_, _, by simp [Instr.opcode], rfl⟩)
  case read | readT =>
    simp only [except_bind_eq_ok] at hok
    obtain ⟨d, -, hw⟩ := hok
    cases hw; exact .inr (.inl ⟨_, _, by simp [Instr.opcode], rfl⟩)
  case convertByteToAscii =>
    simp only [except_bind_eq_ok, Prod.exists] at hok
    obtain ⟨a, d, -, _, -, hw⟩ := hok
    cases hw; exact .inr (.inl ⟨_, _, by simp [Instr.opcode], rfl⟩)
  case readKeyboard =>
    simp only [except_bind_eq_ok] at hok
    obtain ⟨d, -, hw⟩ := hok
    cases hw; exact .inr (.inr (.inl ⟨_, rfl, rfl⟩))
  case write =>
    simp only [except_bind_eq_ok, dataWrite_eq_ok] at hok
    obtain ⟨r, -, _, ⟨writable, inside, rfl⟩, hw⟩ := hok
    cases hw; exact .inr (.inr (.inr (.inl ⟨_, rfl, writable, inside, rfl⟩)))
  case convertToBase10 =>
    simp only [except_bind_eq_ok] at hok
    obtain ⟨r, -, hw⟩ := hok
    generalize decimalDigits (s.reg r) = digits at hw
    obtain ⟨v1, v2, v3⟩ := digits
    simp only [checkBounds_eq_ok, checkWritable_eq_ok] at hw
    obtain ⟨_, writable, _, -, _, -, _, inside, hw⟩ := hw
    cases hw; exact .inr (.inr (.inr (.inr (.inl ⟨_, _, _, rfl, writable, inside, rfl⟩))))
  case switchMemory =>
    simp only [except_bind_eq_ok] at hok
    obtain ⟨_, -, _, -, _, -, hw⟩ := hok
    cases hw; exact .inr (.inr (.inr (.inr (.inr (.inl ⟨rfl, rfl⟩)))))
  case setA =>
    cases hok; exact .inr (.inr (.inr (.inr (.inr (.inr (.inl ⟨_, rfl, rfl⟩))))))
  case setT =>
    simp only [except_bind_eq_ok, checkZero_eq_ok] at hok
    obtain ⟨_, rfl, hw⟩ := hok
    cases hw; exact .inr (.inr (.inr (.inr (.inr (.inr (.inr (.inl ⟨_, rfl, rfl⟩)))))))
  case draw =>
    simp only [except_bind_eq_ok, require_eq_ok, decide_eq_true_eq] at hok
    obtain ⟨r, -, _, char, _, -, _, -, hw⟩ := hok
    cases hw; exact .inr (.inr (.inr (.inr (.inr (.inr (.inr (.inr (.inl ⟨_, _, rfl, char, rfl⟩))))))))
  case jump =>
    simp only [except_bind_eq_ok, checkEven, require_eq_ok, beq_iff_eq] at hok
    obtain ⟨_, even, hw⟩ := hok
    cases hw; exact .inr (.inr (.inr (.inr (.inr (.inr (.inr (.inr (.inr (.inl ⟨_, rfl, even, rfl⟩)))))))))
  case skipEqual =>
    simp only [except_bind_eq_ok, Prod.exists, checkRegRegZero_eq_ok] at hok
    obtain ⟨a, b, ⟨rfl, rfl, rfl⟩, hw⟩ := hok
    cases hw; exact .inr (.inr (.inr (.inr (.inr (.inr (.inr (.inr (.inr (.inr (.inl ⟨_, _, ⟨_, rfl⟩, rfl⟩))))))))))
  case skipNotEqual =>
    simp only [except_bind_eq_ok, Prod.exists, checkRegRegZero_eq_ok] at hok
    obtain ⟨a, b, ⟨rfl, rfl, rfl⟩, hw⟩ := hok
    cases hw; exact .inr (.inr (.inr (.inr (.inr (.inr (.inr (.inr (.inr (.inr (.inr ⟨_, _, ⟨_, rfl⟩, rfl⟩))))))))))

end Sys2Proof.Machine
end

