-- ==== Sys2Proof/Laws/PerInstr.lean ====
section
/-! SUPPORT. The family RowMatch: an instruction's word has its opcode's match and mask bits, and the instruction is
well formed exactly when its word passes the opcode table's `valid_match` and `valid_mask` test (R99). -/

namespace Sys2Proof.Laws.RowMatch

/-- The word of an instruction against the opcode table's row. -/
def Statement (i : Instr) : Prop :=
  ∃ row : OpcodeRow, i.opcode.row = some row ∧ encode i &&& row.mask = row.matchBits ∧
    (i.wellFormed = true ↔ encode i &&& row.validMask = row.validMatch)

theorem zero_valid (n : Nibble) : FieldUse.valid .zero n = true ↔ n &&& 0xF#4 = 0x0#4 := by revert n; decide
theorem register_valid (n : Nibble) : FieldUse.valid .register n = true ↔ n &&& 0x8#4 = 0x0#4 := by revert n; decide
theorem literal_valid (n : Nibble) : FieldUse.valid .literal n = true ↔ n &&& 0x8#4 = 0x0#4 := by revert n; decide
theorem free_valid (n : Nibble) : FieldUse.valid .free n = true ↔ n &&& 0x0#4 = 0x0#4 := by revert n; decide

/-- The nibble of the opcode table's valid mask that tests a use. -/
def maskOf : FieldUse → Nibble
  | .register => 0x8
  | .zero => 0xF
  | .literal => 0x8
  | .free => 0x0

theorem valid_iff (u : FieldUse) (n : Nibble) : u.valid n = true ↔ n &&& maskOf u = 0x0#4 := by
  cases u
  · exact register_valid n
  · exact zero_valid n
  · exact literal_valid n
  · exact free_valid n

/-- Three checked nibbles, as one test of the word. -/
theorem fieldsValid_iff (o : Opcode) (op1 op2 op3 : Nibble) :
    o.fieldsValid op1 op2 op3 = true ↔
      nibbles4 o.code op1 op2 op3 &&& nibbles4 0xF (maskOf o.uses.1) (maskOf o.uses.2.1) (maskOf o.uses.2.2) =
        nibbles4 o.code 0 0 0 := by
  have code : o.code &&& 0xF#4 = o.code := by cases o <;> rfl
  simp [Opcode.fieldsValid, valid_iff, nibbles4_and, nibbles4_inj, code, and_assoc]

/-- The opcode's own bits. -/
theorem opcode_bits (o : Opcode) (op1 op2 op3 : Nibble) :
    nibbles4 o.code op1 op2 op3 &&& 0xF000#16 = nibbles4 o.code 0 0 0 := by
  have code : o.code &&& 0xF#4 = o.code := by cases o <;> rfl
  have mask : (0xF000#16 : Word) = nibbles4 0xF 0 0 0 := rfl
  rw [mask, nibbles4_and, nibbles4_inj]
  simp [code]

/-- The low bit of an address operand. -/
theorem even_iff (n2 n1 n0 : Nibble) : ((n2 ++ n1 ++ n0 : Addr12).toNat % 2 == 0) = true ↔ n0 &&& 0x1#4 = 0x0#4 := by
  have last : ∀ n : Nibble, n.toNat % 2 = 0 ↔ n &&& 0x1#4 = 0x0#4 := by decide
  rw [beq_iff_eq, ← last n0, BitVec.toNat_append, ← Nat.shiftLeft_add_eq_or_of_lt n0.isLt, Nat.shiftLeft_eq]
  omega

theorem store (op1 : Nibble) (imm : Byte) : Statement (.store op1 imm) := by
  obtain ⟨n1, n0, rfl⟩ := byte_nibbles imm
  refine ⟨_, rfl, ?_, ?_⟩
  · rw [encode_store]; exact opcode_bits .store op1 n1 n0
  · rw [encode_store]
    have valid : Instr.wellFormed (.store op1 (n1 ++ n0)) = Opcode.store.fieldsValid op1 n1 n0 := by
      simp [Instr.wellFormed, Opcode.fieldsValid, Opcode.uses, FieldUse.valid]
    rw [valid]
    exact fieldsValid_iff .store op1 n1 n0

theorem add (op1 op2 op3 : Nibble) : Statement (.add op1 op2 op3) :=
  ⟨_, rfl, opcode_bits .add op1 op2 op3, fieldsValid_iff .add op1 op2 op3⟩

theorem sub (op1 op2 op3 : Nibble) : Statement (.sub op1 op2 op3) :=
  ⟨_, rfl, opcode_bits .sub op1 op2 op3, fieldsValid_iff .sub op1 op2 op3⟩

theorem read (op1 op2 op3 : Nibble) : Statement (.read op1 op2 op3) :=
  ⟨_, rfl, opcode_bits .read op1 op2 op3, fieldsValid_iff .read op1 op2 op3⟩

theorem write (op1 op2 op3 : Nibble) : Statement (.write op1 op2 op3) :=
  ⟨_, rfl, opcode_bits .write op1 op2 op3, fieldsValid_iff .write op1 op2 op3⟩

theorem jump (target : Addr12) : Statement (.jump target) := by
  obtain ⟨n2, n1, n0, rfl⟩ := addr_nibbles target
  refine ⟨_, rfl, ?_, ?_⟩
  · rw [encode_jump]; exact opcode_bits .jump n2 n1 n0
  · rw [encode_jump]
    have mask : (0xF001#16 : Word) = nibbles4 0xF 0 0 1 := rfl
    have code : (0x5000#16 : Word) = nibbles4 0x5 0 0 0 := rfl
    simp only [Instr.wellFormed, even_iff]
    show _ ↔ nibbles4 0x5 n2 n1 n0 &&& 0xF001#16 = 0x5000#16
    rw [mask, code, nibbles4_and, nibbles4_inj]
    simp

theorem readKeyboard (op1 op2 op3 : Nibble) : Statement (.readKeyboard op1 op2 op3) :=
  ⟨_, rfl, opcode_bits .readKeyboard op1 op2 op3, fieldsValid_iff .readKeyboard op1 op2 op3⟩

theorem switchMemory (op1 op2 op3 : Nibble) : Statement (.switchMemory op1 op2 op3) :=
  ⟨_, rfl, opcode_bits .switchMemory op1 op2 op3, fieldsValid_iff .switchMemory op1 op2 op3⟩

theorem skipEqual (op1 op2 op3 : Nibble) : Statement (.skipEqual op1 op2 op3) :=
  ⟨_, rfl, opcode_bits .skipEqual op1 op2 op3, fieldsValid_iff .skipEqual op1 op2 op3⟩

theorem skipNotEqual (op1 op2 op3 : Nibble) : Statement (.skipNotEqual op1 op2 op3) :=
  ⟨_, rfl, opcode_bits .skipNotEqual op1 op2 op3, fieldsValid_iff .skipNotEqual op1 op2 op3⟩

theorem setA (addr : Addr12) : Statement (.setA addr) := by
  obtain ⟨n2, n1, n0, rfl⟩ := addr_nibbles addr
  refine ⟨_, rfl, ?_, ?_⟩
  · rw [encode_setA]; exact opcode_bits .setA n2 n1 n0
  · rw [encode_setA]
    exact ⟨fun _ => opcode_bits .setA n2 n1 n0, fun _ => rfl⟩

theorem setT (op1 op2 op3 : Nibble) : Statement (.setT op1 op2 op3) :=
  ⟨_, rfl, opcode_bits .setT op1 op2 op3, fieldsValid_iff .setT op1 op2 op3⟩

theorem readT (op1 op2 op3 : Nibble) : Statement (.readT op1 op2 op3) :=
  ⟨_, rfl, opcode_bits .readT op1 op2 op3, fieldsValid_iff .readT op1 op2 op3⟩

theorem convertToBase10 (op1 op2 op3 : Nibble) : Statement (.convertToBase10 op1 op2 op3) :=
  ⟨_, rfl, opcode_bits .convertToBase10 op1 op2 op3, fieldsValid_iff .convertToBase10 op1 op2 op3⟩

theorem convertByteToAscii (op1 op2 op3 : Nibble) : Statement (.convertByteToAscii op1 op2 op3) :=
  ⟨_, rfl, opcode_bits .convertByteToAscii op1 op2 op3, fieldsValid_iff .convertByteToAscii op1 op2 op3⟩

theorem draw (op1 op2 op3 : Nibble) : Statement (.draw op1 op2 op3) :=
  ⟨_, rfl, opcode_bits .draw op1 op2 op3, fieldsValid_iff .draw op1 op2 op3⟩

end Sys2Proof.Laws.RowMatch
end

