-- ==== Sys2Proof/Laws/Run.lean ====
section
/-! SUPPORT. Runs: one step, then the rest; the bounded run and the event sequence the same way; and what a step leaves
when it does not run a handler. -/

namespace Sys2Proof.Machine

theorem core_run_zero (s : State) : Sys2Proof.core.run 0 s = .next s := rfl

/-- A run of `n + 1` steps of any machine is a step, and a run of `n` from there. -/
theorem run_succ_of (M : Host.Core) (n : Nat) (s t : M.State) :
    M.run (n + 1) s = .next t ↔ ∃ u, M.step s = .next u ∧ M.run n u = .next t := by
  rw [Host.Core.run]
  cases M.step s <;> simp

/-- A run of `n + 1` steps is a step, and a run of `n` from there. -/
theorem core_run_succ (n : Nat) (s t : State) :
    Sys2Proof.core.run (n + 1) s = .next t ↔ ∃ u, step s = .next u ∧ Sys2Proof.core.run n u = .next t :=
  run_succ_of Sys2Proof.core n s t

/-- A step always answers a next state (R133). -/
theorem step_next (s : State) : ∃ t, step s = .next t := by
  rcases step_cases s with ⟨_, _, h⟩ | ⟨_, _, _, h⟩ | ⟨_, _, w, _, h⟩
  · exact ⟨_, h⟩
  · exact ⟨_, h⟩
  · rw [h]; exact exec_next _ s

/-- A step leaves the state as it was, or records a reason, or is the handler of the fetched word. -/
theorem step_next_cases {s t : State} (h : step s = .next t) :
    t = s ∨ (∃ q, t = s.terminate q) ∨ ∃ w, fetch s = .ok w ∧ exec (decodeWord w) s = .next t := by
  rcases step_cases s with ⟨_, _, hs⟩ | ⟨_, q, _, hs⟩ | ⟨_, _, w, hf, hs⟩ <;> rw [hs] at h
  · exact .inl (Host.Outcome.next.inj h).symm
  · exact .inr (.inl ⟨q, (Host.Outcome.next.inj h).symm⟩)
  · exact .inr (.inr ⟨w, hf, h⟩)

/-! ### Event sequences, and the steps of a bounded run -/

@[simp] theorem runEvents_nil (s : State) : runEvents [] s = .next s := rfl

/-- An event sequence is its first event, and the rest from there. -/
theorem runEvents_cons (e : Event) (rest : List Event) (s t : State) :
    runEvents (e :: rest) s = .next t ↔ ∃ u, runEvent e s = .next u ∧ runEvents rest u = .next t := by
  simp only [runEvents]
  cases runEvent e s <;> simp

/-- Two event sequences, one after the other. -/
theorem runEvents_append (before rest : List Event) (s t : State) :
    runEvents (before ++ rest) s = .next t ↔ ∃ u, runEvents before s = .next u ∧ runEvents rest u = .next t := by
  induction before generalizing s with
  | nil => simp
  | cons e before ih =>
    simp only [List.cons_append, runEvents_cons, ih]
    constructor
    · rintro ⟨v, he, u, hu, ht⟩; exact ⟨u, ⟨v, he, hu⟩, ht⟩
    · rintro ⟨u, ⟨v, he, hu⟩, ht⟩; exact ⟨v, he, u, hu, ht⟩

/-- Ticks alone are always taken. -/
theorem runEvents_ticks (k : Nat) (s : State) :
    runEvents (List.replicate k (.host .tick)) s = .next (State.tick^[k] s) := by
  induction k generalizing s with
  | zero => rfl
  | succ k ih => exact ih s.tick

/-- Steps under a tick schedule: the first number's ticks, a step, and the rest from there. -/
theorem runEvents_tickedSteps_succ (n : Nat) (ticks : List Nat) (s t : State) :
    runEvents (tickedSteps (n + 1) ticks) s = .next t ↔
      ∃ u, step (State.tick^[ticks.headD 0] s) = .next u ∧ runEvents (tickedSteps n ticks.tail) u = .next t := by
  simp only [tickedSteps, runEvents_append, runEvents_ticks, runEvents_cons, runEvent]
  simp

/-- Ticks leave RUN and ICOUNT as they are (R215). -/
theorem tick_iterate_run (k : Nat) (s : State) : (State.tick^[k] s).run = s.run := by
  induction k generalizing s with
  | zero => rfl
  | succ k ih => rw [Function.iterate_succ_apply, ih, State.tick_run]

theorem tick_iterate_icount (k : Nat) (s : State) : (State.tick^[k] s).icount = s.icount := by
  induction k generalizing s with
  | zero => rfl
  | succ k ih => rw [Function.iterate_succ_apply, ih, State.tick_icount]

end Sys2Proof.Machine
end

