-- ==== Sys2Proof/Tests/Slice0.lean ====
section
/-! SUPPORT. The model's own tests: expected results are those of spec/95_test_vectors.md (its vector is named beside
each), and a witness for the hypotheses of every statement that has some. -/

namespace Sys2Proof.Tests

open Sys2Proof.Machine

/-! ### Helpers -/

/-- The state after an answer, or `s` where there is none. -/
def stateOr (s : State) : Result → State
  | .next t => t
  | .fault _ => s
  | .refused _ => s

/-- The state after the handler of a word, from `s`. -/
def after (w : Word) (s : State) : State := stateOr s (exec (decodeWord w) s)

/-- The state after one step. -/
def stepped (s : State) : State := stateOr s (step s)

/-- The start state of the single-instruction vectors (95_test_vectors.md, Conventions). -/
def start : State := { State.reset with pc := 0x010, plen := 0x100, icount := 1 }

/-- `start` with two registers set. -/
def with2 (r1 : RegIx) (v1 : Byte) (r2 : RegIx) (v2 : Byte) : State := (start.setReg r1 v1).setReg r2 v2

/-- Writable ROM, as some vectors have it. -/
def writable : Config := { Config.reference with romWritable := true }

/-- The state after a load into a new machine, or the new machine where the load is refused. -/
def loaded (bytes : List Byte) : State :=
  match State.reset.load bytes with
  | .ok t => t
  | .error _ => State.reset

/-- A running state about to fetch word `w` at 0x010. -/
def at10 (w : Word) : State := start.withFetchWord 16 w.toNat

/-! ### WellFormed: an ill-formed term for each check (R93-R97) -/

theorem test_wellFormed_refuses_registers :
    (Instr.store 8 0).wellFormed = false ∧ (Instr.add 8 0 0).wellFormed = false ∧ (Instr.add 0 8 0).wellFormed = false ∧
    (Instr.add 0 0 8).wellFormed = false ∧ (Instr.sub 0 15 0).wellFormed = false ∧ (Instr.read 9 0 0).wellFormed = false ∧
    (Instr.write 8 0 0).wellFormed = false ∧ (Instr.readKeyboard 8 0 0).wellFormed = false ∧
    (Instr.skipEqual 8 0 0).wellFormed = false ∧ (Instr.skipNotEqual 0 8 0).wellFormed = false ∧
    (Instr.readT 8 0 0).wellFormed = false ∧ (Instr.convertToBase10 8 0 0).wellFormed = false ∧
    (Instr.convertByteToAscii 0 9 0).wellFormed = false ∧ (Instr.draw 8 0 0).wellFormed = false := by decide

theorem test_wellFormed_refuses_nonzero_fields :
    (Instr.read 0 1 0).wellFormed = false ∧ (Instr.write 0 0 1).wellFormed = false ∧
    (Instr.readKeyboard 0 1 0).wellFormed = false ∧ (Instr.switchMemory 1 0 0).wellFormed = false ∧
    (Instr.switchMemory 0 0 1).wellFormed = false ∧ (Instr.skipEqual 0 0 1).wellFormed = false ∧
    (Instr.skipNotEqual 0 0 15).wellFormed = false ∧ (Instr.setT 0 0 1).wellFormed = false ∧
    (Instr.readT 0 0 4).wellFormed = false ∧ (Instr.convertToBase10 0 1 0).wellFormed = false ∧
    (Instr.convertByteToAscii 0 0 1).wellFormed = false := by decide

theorem test_wellFormed_refuses_coordinates_and_odd_targets :
    (Instr.draw 0 8 0).wellFormed = false ∧ (Instr.draw 0 0 8).wellFormed = false ∧
    (Instr.jump 0x201).wellFormed = false := by decide

theorem test_wellFormed_accepts :
    (Instr.store 7 0xFF).wellFormed = true ∧ (Instr.setA 0xFFF).wellFormed = true ∧ (Instr.setT 15 15 0).wellFormed = true ∧
    (Instr.draw 7 7 7).wellFormed = true ∧ (Instr.jump 0xFFE).wellFormed = true := by decide

/-! ### Decoding: every constructor from a written-out word (R91, R99) -/

theorem test_decode_register_family :
    decodeWord 0b0000_0111_1010_0101 = .store 7 0xA5 ∧ decodeWord 0b0001_0000_0001_0010 = .add 0 1 2 ∧
    decodeWord 0b0010_0001_0000_0010 = .sub 1 0 2 := by decide

theorem test_decode_memory_family :
    decodeWord 0b0011_0011_0000_0000 = .read 3 0 0 ∧ decodeWord 0b0100_0010_0000_0000 = .write 2 0 0 ∧
    decodeWord 0b0111_0000_0000_0000 = .switchMemory 0 0 0 ∧ decodeWord 0b1010_0101_1100_0011 = .setA 0x5C3 ∧
    decodeWord 0b1101_0011_0000_0000 = .convertToBase10 3 0 0 := by decide

theorem test_decode_control_family :
    decodeWord 0b0101_0010_0000_0001 = .jump 0x201 ∧ decodeWord 0b1000_0000_0001_0000 = .skipEqual 0 1 0 ∧
    decodeWord 0b1001_0111_0110_0000 = .skipNotEqual 7 6 0 := by decide

theorem test_decode_io_family :
    decodeWord 0b0110_0101_0000_0000 = .readKeyboard 5 0 0 ∧ decodeWord 0b1011_0011_1111_0000 = .setT 3 15 0 ∧
    decodeWord 0b1100_0100_0000_0000 = .readT 4 0 0 ∧ decodeWord 0b1110_0000_0001_0000 = .convertByteToAscii 0 1 0 ∧
    decodeWord 0b1111_0011_0010_0111 = .draw 3 2 7 := by decide

/-- Section 2.1, row 0xA5C3. -/
theorem test_fields :
    fieldsOf 0xA5C3 = { opcode := 0xA, op1 := 0x5, op2 := 0xC, op3 := 0x3, byteOperand := 0xC3, addressOperand := 0x5C3 } := by
  decide

theorem test_decodeBytes_is_big_endian :
    decodeBytes [0x12, 0x34, 0x56] = .ok (.add 2 3 4, [0x56]) ∧ decodeBytes [0x12] = .error .truncated ∧
    decodeBytes [] = .error .truncated := ⟨rfl, rfl, rfl⟩

/-- No word has two opcode rows, and the valid words are 10217 (R99). -/
theorem test_opcode_table :
    opcodeTable.Pairwise (fun r1 r2 => r1.matchBits &&& r2.mask ≠ r2.matchBits) ∧
    (opcodeTable.map OpcodeRow.validWords).sum = 10217 ∧ opcodeTable.length = 16 := by decide

/-- The host's questions, on each row's match word. -/
theorem test_decodeTableWord :
    opcodeTable.all (fun row => (decodeTableWord 16 row.matchBits.toNat).map Instr.opcode == some row.opcode) = true := by decide

theorem test_placed_word_runs_after_reset :
    stepped (State.reset.withFetchWord 16 0x002A) = after 0x002A (State.reset.withFetchWord 16 0x002A) ∧
    (stepped (State.reset.withFetchWord 16 0x002A)).x[0] = 42 := by decide

/-! ### Register instructions (section 2.2) -/

theorem test_store : (after 0x07A5 start).x[7] = 0xA5 ∧ (after 0x07A5 start).pc = 0x012 ∧
    (after 0x0842 start).run = .terminated (.fmtBadRegister .op1 8) := by decide

theorem test_add_wraps : (after 0x1012 (with2 0 0xFF 1 0x02)).x[2] = 0x01 ∧ (after 0x1777 (with2 7 0x81 0 0)).x[7] = 0x02 ∧
    (after 0x1011 (with2 0 3 1 4)).x[1] = 7 := by decide

theorem test_add_reports_op1_first : (after 0x1888 start).run = .terminated (.fmtBadRegister .op1 8) ∧
    (after 0x1018 start).run = .terminated (.fmtBadRegister .op3 8) := by decide

theorem test_sub : (after 0x2012 (with2 0 0x05 1 0x10)).x[2] = 0xF5 ∧ (after 0x2102 (with2 0 0x10 1 0x30)).x[2] = 0x20 ∧
    (after 0x2333 (with2 3 0x44 0 0)).x[3] = 0 := by decide

/-! ### Memory instructions (section 2.3) -/

theorem test_read_ram : (after 0x3300 { start with a := 0x400, ram := [(0x400, 0x07)] }).x[3] = 0x07 ∧
    (after 0x3000 { start with a := 0x1000, x := start.x.set 0 9 }).x[0] = 0 := by decide

theorem test_read_rom_stops_at_plen :
    (after 0x3000 { start with m := true, a := 4, plen := 6, rom := [(4, 0x10), (6, 0x99)] }).x[0] = 0x10 ∧
    (after 0x3000 { start with m := true, a := 6, plen := 6, rom := [(4, 0x10), (6, 0x99)] }).x[0] = 0 := by decide

theorem test_write : (after 0x4200 { with2 2 0x5A 0 0 with a := 0x010 }).ram = [(0x010, 0x5A)] ∧
    (after 0x4000 { with2 0 1 1 0 with a := 0x1000 }).run = .terminated (.boundsData .ram 0x1000) ∧
    (after 0x4000 { with2 0 0 1 0 with a := 0x010, ram := [(0x010, 0x5A)] }).ram = [] := by decide

theorem test_write_rom : (after 0x4000 { start with m := true, a := 0x2000 }).run = .terminated (.resourceRomReadOnly 0x2000) ∧
    (after 0x4000 { with2 0 0x77 1 0 with cfg := writable, m := true, a := 0x020 }).rom = [(0x020, 0x77)] ∧
    (after 0x4000 { start with cfg := writable, m := true, a := 0x1000 }).run = .terminated (.boundsData .rom 0x1000) := by decide

theorem test_switchMemory : (after 0x7000 start).m = true ∧ (after 0x7000 { start with m := true }).m = false ∧
    (after 0x7100 start).run = .terminated (.fmtNonzeroField .op1 1) := by decide

theorem test_setA : (after 0xAFFF start).a = 0x0FFF ∧ (after 0xA000 { start with a := 0x1234 }).a = 0 := by decide

theorem test_convertToBase10 :
    (after 0xD000 { with2 0 255 1 0 with a := 0x400 }).ram = [(0x400, 2), (0x401, 5), (0x402, 5)] ∧
    (after 0xD000 { with2 0 123 1 0 with a := 0x400 }).ram = [(0x400, 1), (0x401, 2), (0x402, 3)] := by decide

theorem test_convertToBase10_bounds :
    (after 0xD000 { with2 0 1 1 0 with a := 0xFFE }).run = .terminated (.boundsData .ram 0x1000) ∧
    (after 0xD000 { with2 0 1 1 0 with a := 0xFFE }).ram = [] ∧
    (after 0xD000 { with2 0 42 1 0 with a := 0xFFFF, cfg := { writable with ramSize := 65536 } }).run =
      .terminated (.boundsData .ram 0x10000) := by decide

/-! ### Control transfer (section 2.4) -/

theorem test_jump : (after 0x5200 start).pc = 0x200 ∧ (after 0x5201 start).run = .terminated (.fmtOddJumpTarget 0x201) ∧
    (after 0x5201 start).pc = 0x010 := by decide

theorem test_skipEqual : (after 0x8010 (with2 0 7 1 7)).pc = 0x014 ∧ (after 0x8010 (with2 0 7 1 8)).pc = 0x012 ∧
    (after 0x8011 start).run = .terminated (.fmtNonzeroField .op3 1) := by decide

theorem test_skipNotEqual : (after 0x9010 (with2 0 1 1 2)).pc = 0x014 ∧ (after 0x9010 (with2 0 2 1 2)).pc = 0x012 ∧
    (after 0x9080 start).run = .terminated (.fmtBadRegister .op2 8) := by decide

/-! ### Keyboard, timer, conversion and display (section 2.5) -/

theorem test_readKeyboard : (after 0x6500 { start with keys := [0x0A, 0x0B] }).x[5] = 0x0A ∧
    (after 0x6500 { start with keys := [0x0A, 0x0B] }).keys = [0x0B] ∧
    (after 0x6800 { start with keys := [0x0A] }).keys = [0x0A] := by decide

theorem test_readKeyboard_free : (after 0x6000 start).x[0] = Config.keyIn 0 ∧ (after 0x6000 start).keyDraws = 1 := ⟨rfl, rfl⟩

theorem test_setT : (after 0xB0F0 start).t = 0xF0 ∧ (after 0xBF00 { start with t := 9 }).t = 0 ∧
    (after 0xB0FF start).run = .terminated (.fmtNonzeroField .op3 15) := by decide

theorem test_readT : (after 0xC400 { start with t := 0x2F }).x[4] = 0x2F ∧ (after 0xC400 { start with t := 0x2F }).t = 0x2F ∧
    (after 0xC004 start).run = .terminated (.fmtNonzeroField .op3 4) := by decide

theorem test_convertByteToAscii : (after 0xE010 (with2 0 9 1 0)).x[1] = 0x39 ∧ (after 0xE010 (with2 0 0xA 1 0)).x[1] = 0x41 ∧
    (after 0xE000 (with2 0 0xF 1 0)).x[0] = 0x46 ∧
    (after 0xE010 (with2 0 0x10 1 0)).run = .terminated (.fmtDigitTooLarge 0x10) := by decide

theorem test_draw : (after 0xF327 (with2 3 0x41 0 0)).disp[23] = 0x41 ∧ (after 0xF327 (with2 3 0x41 0 0)).disp[22] = 0x20 ∧
    (after 0xF077 (with2 0 0 1 0)).disp[63] = 0 := by decide

theorem test_draw_check_order : (after 0xF088 (with2 0 0x41 1 0)).run = .terminated (.fmtBadRow 8) ∧
    (after 0xF088 (with2 0 0x80 1 0)).run = .terminated (.fmtBadChar 0x80) ∧
    (after 0xF008 (with2 0 0x41 1 0)).run = .terminated (.fmtBadCol 8) := by decide

/-! ### The step (section 2.6) -/

/-- T2, T3, T4, T5 and T6. -/
theorem test_termination_checks :
    (stepped { start with pc := 0, icount := 5, plen := 6 }).run = .terminated .haltPcZero ∧
    (stepped { start with pc := 6, icount := 3, plen := 6 }).run = .terminated (.haltOutOfProgram 6) ∧
    (stepped { start with pc := 0, icount := 1, plen := 0 }).run = .terminated .haltPcZero ∧
    (stepped (loaded [])).run = .terminated (.haltOutOfProgram 0) ∧
    (stepped State.reset).run = .terminated (.haltOutOfProgram 0) := by decide

/-- T8, its second step: an odd program length. -/
theorem test_fetch_last_odd_byte : (stepped { loaded [0x00, 0x05, 0x01] with pc := 2, icount := 1 }).x[1] = 0 ∧
    (stepped { loaded [0x00, 0x05, 0x01] with pc := 2, icount := 1 }).pc = 4 := by decide

/-- T10, its third step, and T11. -/
theorem test_fetch_faults :
    (stepped { start with pc := 4, plen := 5, cfg := { Config.reference with romSize := 5 } }).run = .terminated (.boundsFetch 4) ∧
    (stepped { start with pc := 5 }).run = .terminated (.fetchMisaligned 5) := by decide

/-- T12 and T13. -/
theorem test_failing_and_successful_step :
    stepped (at10 0x0842) = { at10 0x0842 with run := .terminated (.fmtBadRegister .op1 8) } ∧
    (stepped (at10 0x0001)).pc = 0x012 ∧ (stepped (at10 0x0001)).icount = 2 ∧ (stepped (at10 0x0001)).run = .running := by decide

/-! ### Load, reset and the host (sections 2.7 and 2.8) -/

theorem test_load : (loaded [0x00, 0x2A, 0x01]).rom = [(1, 0x2A), (2, 0x01)] ∧ (loaded [0x00, 0x2A, 0x01]).plen = 3 ∧
    ({ State.reset with cfg := { writable with romSize := 2 } }).load [1, 2, 3] = .error .tooLarge := ⟨by decide, by decide, rfl⟩

/-- A state with every field off its reset value that a reset clears. -/
def used : State :=
  let s := { start with x := start.x.set 3 7, t := 4, a := 5, m := true, ram := [(1, 1)], rom := [(0, 0x50)] }
  { s with disp := s.disp.set 5 0x41, run := .terminated .haltPcZero }

theorem test_machineReset : used.machineReset = { State.reset with plen := 0x100, rom := [(0, 0x50)] } := by decide

/-- H4 to H11. -/
theorem test_host_rejections :
    start.setPc 0x201 = .error .rejected ∧ start.setPc 0x10000 = .error .rejected ∧ start.setRegister 3 256 = .error .rejected ∧
    start.setRegister 3 (-1) = .error .rejected ∧ start.setRegister 8 0 = .error .rejected ∧
    start.setTimerTo 0x100 = .error .rejected ∧ start.setAddress 0x10000 = .error .rejected ∧
    start.strictRead .ram 0x1000 = .error .outOfRange ∧ start.strictWrite .rom 0 1 = .error .readOnly ∧
    start.displayDraw 0x80 8 0 = .error .invalidChar ∧ start.displayDraw 0x41 8 0 = .error .outOfBounds :=
  ⟨rfl, rfl, rfl, rfl, rfl, rfl, rfl, rfl, rfl, rfl, rfl⟩

theorem test_ticks : ({ start with t := 3 }).tick.t = 2 ∧ (State.tick^[5] { start with t := 3 }).t = 0 ∧ start.tick = start := by
  decide

/-- Line 0 of the display, from eight bytes. -/
def line0 (bytes : List Byte) : State := { start with disp := Vector.ofFn fun k : Fin 64 => bytes.getD k.val 0x20 }

/-- Section 2.9, last row. -/
theorem test_render :
    (line0 [0x00, 0x1F, 0x20, 0x7F, 0x41, 0x30, 0x5A, 0x7A]).renderLine 0 = ['#', '#', '#', '#', 'A', '0', 'Z', 'z'] := by
  decide

theorem test_assembly : disassemble 0xE230 = .line .convertByteToAscii [.reg 2, .reg 3] ∧
    (disassemble 0x00FF).text = "STORE r0, 0xFF" ∧ (disassemble 0x7000).text = "SWITCH_MEMORY" ∧
    (disassemble 0x0842).text = ".word 0x0842" ∧ assemble (.line .jump [.num 0x201]) = none ∧
    assemble (.line .setT [.num 0x30]) = some 0xB030 := by decide

/-- P5 with k = 0xFF, t1 = 3 and t2 = 2: the ticks fall inside one bounded run, and x[1] is 0xA0 - t1 - t2. -/
theorem test_bounded_run_with_ticks :
    ∃ t, runBound 3 [0, 3, 2] { loaded [0xB0, 0xA0, 0x60, 0x00, 0xC1, 0x00] with keys := [0xFF] } = .next (.boundReached, t) ∧
      t.x[0] = 0xFF ∧ t.x[1] = 0x9B ∧ t.t = 0x9B := ⟨_, rfl, by decide, by decide, by decide⟩

/-- P1: a bounded run of three instructions (W12). -/
theorem test_bounded_run :
    ∃ t, runBound 3 [] (loaded [0x00, 0x2A, 0x01, 0x08, 0x10, 0x12]) = .next (.boundReached, t) ∧ t.x[2] = 50 ∧ t.pc = 6 :=
  ⟨_, rfl, by decide, by decide⟩

/-! ### Witnesses: for every statement with hypotheses, concrete values that meet them, clause by clause, at the
boundaries of each range -/

theorem witness_DispatchIsOnTheOpcodeAlone : ∀ k : Fin 16, (fieldsOf (BitVec.ofNat 16 (k.val * 4096))).opcode = BitVec.ofNat 4 k.val := by
  decide

theorem witness_InvalidInstructionsAreFatalFormatErrors :
    (Instr.add 0 0 8).wellFormed = false ∧ (Instr.draw 0 0 15).wellFormed = false := by decide

theorem witness_FirstBadFieldGivesTheReason :
    (Instr.add 0 8 15).firstBadField = some (.fmtBadRegister .op2 8) ∧
    (Instr.setT 15 15 1).firstBadField = some (.fmtNonzeroField .op3 1) ∧
    (Instr.jump 1).firstBadField = some (.fmtOddJumpTarget 1) := by decide

/-- The bad fields of the instructions' clauses: registers from 8 on, and must-be-zero fields from 1 on. Each of STORE,
ADD, SUB, READ, WRITE, SWITCH_MEMORY, CONVERT_TO_BASE_10, the skips, READ_KEYBOARD, SET_T, READ_T,
CONVERT_BYTE_TO_ASCII and DRAW has clauses of this kind, and no other hypothesis in them but DRAW's. -/
theorem witness_bad_field_clauses : 7 < (8 : Nibble).toNat ∧ 7 < (15 : Nibble).toNat ∧ (1 : Nibble) ≠ 0 ∧ (15 : Nibble) ≠ 0 := by
  decide

/-- The six clauses of WRITE on the memory: the last byte, and the first past it. -/
theorem witness_WriteStoresToTheSelectedByte :
    (∃ s : State, s.m = false ∧ s.a.toNat + 1 = s.cfg.ramSize) ∧
    (∃ s : State, s.m = true ∧ s.cfg.romWritable = true ∧ s.a.toNat + 1 = s.cfg.romSize) ∧
    (∃ s : State, s.m = true ∧ s.cfg.romWritable = false) ∧
    (∃ s : State, s.m = false ∧ s.a.toNat = s.cfg.ramSize) ∧
    (∃ s : State, s.m = true ∧ s.cfg.romWritable = true ∧ s.a.toNat = s.cfg.romSize) :=
  ⟨⟨{ start with a := 0xFFF }, by decide⟩, ⟨{ start with a := 0xFFF, m := true, cfg := writable }, by decide⟩,
    ⟨{ start with m := true }, by decide⟩, ⟨{ start with a := 0x1000 }, by decide⟩,
    ⟨{ start with a := 0x1000, m := true, cfg := writable }, by decide⟩⟩

/-- The clauses of CONVERT_TO_BASE_10 on the memory: the last three bytes, and each of the three digits past the end. -/
theorem witness_ConvertToBase10WritesThreeDigitsOrNothing :
    (∃ s : State, s.m = false ∧ s.a.toNat + 3 = s.cfg.ramSize) ∧
    (∃ s : State, s.m = true ∧ s.cfg.romWritable = true ∧ s.a.toNat + 3 = s.cfg.romSize) ∧
    (∃ s : State, s.m = true ∧ s.cfg.romWritable = false) ∧
    (∀ k : Fin 3, ∃ s : State, s.m = false ∧ s.cfg.ramSize ≤ s.a.toNat + k.val ∧ ∀ j < k.val, s.a.toNat + j < s.cfg.ramSize) ∧
    (∀ k : Fin 3, ∃ s : State, s.m = true ∧ s.cfg.romWritable = true ∧ s.cfg.romSize ≤ s.a.toNat + k.val ∧
      ∀ j < k.val, s.a.toNat + j < s.cfg.romSize) := by
  refine ⟨⟨{ start with a := 0xFFD }, by decide⟩, ⟨{ start with a := 0xFFD, m := true, cfg := writable }, by decide⟩,
    ⟨{ start with m := true }, by decide⟩, fun k => ⟨{ start with a := 0x1000 - BitVec.ofNat 16 k.val }, ?_⟩,
    fun k => ⟨{ start with a := 0x1000 - BitVec.ofNat 16 k.val, m := true, cfg := writable }, ?_⟩⟩
  · revert k; decide
  · revert k; decide

theorem witness_JumpSetsPc : (0xFFE : Addr12).toNat % 2 = 0 ∧ (0xFFF : Addr12).toNat % 2 = 1 := by decide

/-- A program whose last instruction, at 0x010, is the word; PLEN is 0x012. -/
def last (w : Word) : State := { at10 w with plen := 0x012 }

theorem witness_CornerCasesOfTheTerminationChecks :
    used.load [] = .ok (loaded []) ∧ (used.load [0x01] = .ok (loaded [0x01]) ∧ 2 ≤ used.cfg.romSize) ∧
    (start.run = .running ∧ exec (.jump 0) start = .next (after 0x5000 start)) ∧
    (start.run = .running ∧ (0x100 : Addr12).toNat % 2 = 0 ∧ (0x100 : Addr12) ≠ 0 ∧ start.plen = (0x100 : Addr12).toNat ∧
      exec (.jump 0x100) start = .next (after 0x5100 start)) ∧
    ((last 0x8000).run = .running ∧ (last 0x8000).pc.toNat + 2 = (last 0x8000).plen ∧ (last 0x8000).plen + 2 < 65536 ∧
      exec (.skipEqual 0 0 0) (last 0x8000) = .next (after 0x8000 (last 0x8000))) ∧
    (∃ s : State, s.run = .running ∧ s.pc.toNat + 2 = s.plen ∧ s.plen + 2 < 65536 ∧ s.x[(0 : RegIx)] ≠ s.x[(1 : RegIx)]) :=
  ⟨rfl, ⟨rfl, by decide⟩, ⟨rfl, rfl⟩, ⟨rfl, by decide, by decide, rfl, rfl⟩, ⟨rfl, by decide, by decide, rfl⟩,
    ⟨(last 0x9010).setReg 0 1, by decide⟩⟩

theorem witness_StoredBytesReadBack : Memory.wf [(3, 1), (0xFFFF, 255)] = true ∧ Memory.wf [] = true := by decide

theorem witness_skips : (∃ s : State, s.x[(0 : RegIx)] = s.x[(7 : RegIx)]) ∧ ∃ s : State, s.x[(0 : RegIx)] ≠ s.x[(7 : RegIx)] :=
  ⟨⟨start, by decide⟩, ⟨with2 7 1 0 0, by decide⟩⟩

theorem witness_ReadKeyboardLoadsTheProvidersAnswer : (∃ s : State, s.keys = [0xFF]) ∧ ∃ s : State, s.keys = [] :=
  ⟨⟨{ start with keys := [0xFF] }, rfl⟩, ⟨start, rfl⟩⟩

theorem witness_ConvertByteToAsciiGivesTheDigitsCode :
    (∃ s : State, (s.x[(0 : RegIx)]).toNat = 9) ∧ (∃ s : State, (s.x[(0 : RegIx)]).toNat = 10) ∧
    (∃ s : State, (s.x[(0 : RegIx)]).toNat = 15) ∧ ∃ s : State, (s.x[(0 : RegIx)]).toNat = 16 :=
  ⟨⟨with2 0 9 1 0, by decide⟩, ⟨with2 0 10 1 0, by decide⟩, ⟨with2 0 15 1 0, by decide⟩, ⟨with2 0 16 1 0, by decide⟩⟩

theorem witness_DrawWritesOneCell :
    (∃ s : State, (s.x[(7 : RegIx)]).toNat = 0x7F ∧ 7 < (8 : Nibble).toNat) ∧ ∃ s : State, (s.x[(7 : RegIx)]).toNat = 0x80 :=
  ⟨⟨with2 7 0x7F 1 0, by decide⟩, ⟨with2 7 0x80 1 0, by decide⟩⟩

/-- One form of each disjunct of the three frames over classes of instructions. -/
theorem witness_frames :
    exec (.store 1 2) start = .next (after 0x0102 start) ∧ exec (.add 0 0 1) start = .next (after 0x1001 start) ∧
    exec (.sub 0 0 1) start = .next (after 0x2001 start) ∧ exec (.read 1 0 0) start = .next (after 0x3100 start) ∧
    exec (.readKeyboard 1 0 0) start = .next (after 0x6100 start) ∧ exec (.readT 1 0 0) start = .next (after 0xC100 start) ∧
    exec (.convertByteToAscii 0 1 0) start = .next (after 0xE010 start) ∧
    (Memory.wf start.ram = true ∧ Memory.wf start.rom = true ∧ exec (.write 0 0 0) start = .next (after 0x4000 start)) ∧
    exec (.convertToBase10 0 0 0) start = .next (after 0xD000 start) ∧
    exec (.jump 2) start = .next (after 0x5002 start) ∧ exec (.skipEqual 0 1 0) start = .next (after 0x8010 start) ∧
    exec (.skipNotEqual 0 1 0) start = .next (after 0x9010 start) :=
  ⟨rfl, rfl, rfl, rfl, rfl, rfl, rfl, ⟨rfl, rfl, rfl⟩, rfl, rfl, rfl, rfl⟩

/-- Each of these changes what its clause is about, so the clause's conclusion is not idle. -/
theorem witness_control_register_frame_and_writers :
    (exec (.switchMemory 0 0 0) start = .next (after 0x7000 start) ∧ (after 0x7000 start).m ≠ start.m) ∧
    (exec (.setA 5) start = .next (after 0xA005 start) ∧ (after 0xA005 start).a ≠ start.a) ∧
    (exec (.setT 0 1 0) start = .next (after 0xB010 start) ∧ (after 0xB010 start).t ≠ start.t) ∧
    (exec (.draw 0 0 0) start = .next (after 0xF000 start) ∧ (after 0xF000 start).disp ≠ start.disp) ∧
    (exec (.write 0 0 0) (with2 0 1 1 0) = .next (after 0x4000 (with2 0 1 1 0)) ∧ (after 0x4000 (with2 0 1 1 0)).ram ≠ []) ∧
    (exec (.store 0 1) start = .next (after 0x0001 start) ∧ (after 0x0001 start).x ≠ start.x) :=
  ⟨⟨rfl, by decide⟩, ⟨rfl, by decide⟩, ⟨rfl, by decide⟩, ⟨rfl, by decide⟩, ⟨rfl, by decide⟩, ⟨rfl, by decide⟩⟩

/-- The ROM and keyboard clauses of the writers' statement. -/
theorem witness_rom_and_keyboard_writers :
    (exec (.write 0 0 0) { with2 0 1 1 0 with m := true, cfg := writable } =
      .next (after 0x4000 { with2 0 1 1 0 with m := true, cfg := writable }) ∧
      (after 0x4000 { with2 0 1 1 0 with m := true, cfg := writable }).rom ≠ []) ∧
    exec (.readKeyboard 0 0 0) start = .next (after 0x6000 start) ∧ (after 0x6000 start).keyDraws ≠ start.keyDraws :=
  ⟨⟨rfl, by decide⟩, rfl, by decide⟩

theorem witness_ReadOnlyRomNeverChanges :
    (at10 0x0001).cfg.romWritable = false ∧ Sys2Proof.core.run 1 (at10 0x0001) = .next (stepped (at10 0x0001)) := ⟨rfl, rfl⟩

theorem witness_TimerIsSetToMultiplesOf16AndCountsDown :
    step (at10 0xB5F0) = .next (stepped (at10 0xB5F0)) ∧ (stepped (at10 0xB5F0)).t ≠ (at10 0xB5F0).t ∧
    exec (.setT 0 3 0) start = .next (after 0xB030 start) := ⟨rfl, by decide, rfl⟩

/-- The step of a running machine that completes: DisplayIsNeverRead, StepRunsTheDecodedInstruction,
SuccessfulStepSequencesPcAndCounts, FetchReadsTheBigEndianWordOrFaults (its last clause). -/
theorem witness_successful_step :
    (at10 0x1012).run = .running ∧ ¬ (0 < (at10 0x1012).icount ∧ (at10 0x1012).pc = 0) ∧
    (at10 0x1012).pc.toNat < (at10 0x1012).plen ∧ (at10 0x1012).pc.toNat % 2 = 0 ∧
    (at10 0x1012).pc.toNat + 1 < (at10 0x1012).cfg.romSize ∧
    decodeBytes [Memory.read (at10 0x1012).rom 0x10, Memory.read (at10 0x1012).rom 0x11] = .ok (.add 0 1 2, []) ∧
    step (at10 0x1012) = .next (stepped (at10 0x1012)) ∧ (stepped (at10 0x1012)).run = .running :=
  ⟨rfl, by decide, by decide, by decide, by decide, rfl, rfl, by decide⟩

/-- The taken and the plain case of each skip, and a jump, by steps that complete. -/
theorem witness_SuccessfulStepSequencesPcAndCounts :
    (stepped (at10 0x8000)).run = .running ∧ (stepped (at10 0x9000)).run = .running ∧ (stepped (at10 0x5004)).run = .running := by
  decide

/-- The two fetch faults' clauses: an odd pc, and the last byte of ROM. -/
theorem witness_FetchReadsTheBigEndianWordOrFaults :
    (∃ s : State, s.run = .running ∧ ¬ (0 < s.icount ∧ s.pc = 0) ∧ s.pc.toNat < s.plen ∧ s.pc.toNat % 2 = 1) ∧
    ∃ s : State, s.Inv ∧ s.run = .running ∧ ¬ (0 < s.icount ∧ s.pc = 0) ∧ s.pc.toNat < s.plen ∧ s.pc.toNat % 2 = 0 ∧
      s.cfg.romSize = s.pc.toNat + 1 :=
  ⟨⟨{ start with pc := 5 }, by decide⟩, ⟨{ start with pc := 4, plen := 5, cfg := { writable with romSize := 5 } }, by decide⟩⟩

theorem witness_TerminatedMachineStaysAsItIs : used.run = .terminated .haltPcZero := rfl

theorem witness_CheckAEndsTheRunAtPcZero :
    (∃ s : State, s.run = .running ∧ s.icount = 1 ∧ s.pc = 0) ∧
    (loaded [0, 1]).run = .running ∧ (loaded [0, 1]).icount = 0 ∧ step (loaded [0, 1]) = .next (stepped (loaded [0, 1])) :=
  ⟨⟨{ start with pc := 0 }, by decide⟩, rfl, rfl, rfl⟩

theorem witness_CheckBEndsTheRunPastTheProgram :
    (∃ s : State, s.run = .running ∧ ¬ (0 < s.icount ∧ s.pc = 0) ∧ s.plen = s.pc.toNat) ∧
    (State.reset.run = .running ∧ ¬ (0 < State.reset.icount ∧ State.reset.pc = 0) ∧ State.reset.plen ≤ State.reset.pc.toNat) ∧
    ∃ s : State, s.run = .running ∧ 0 < s.icount ∧ s.pc = 0 ∧ s.plen = 0 :=
  ⟨⟨{ start with plen := 0x10 }, by decide⟩, by decide, ⟨{ start with pc := 0, plen := 0 }, by decide⟩⟩

/-- The word of ReasonsRecordTheirInformation: its field, target, coordinates and register, under other names and values
than the first or the least. -/
theorem witness_ReasonsRecordTheirInformation :
    (stepped (at10 0x10F8)).run = .terminated (.fmtBadRegister .op2 15) ∧
    (stepped (at10 0xC030)).run = .terminated (.fmtNonzeroField .op2 3) ∧
    (stepped (at10 0x5ABD)).run = .terminated (.fmtOddJumpTarget 0xABD) ∧
    (stepped ((at10 0xE510).setReg 5 0x99)).run = .terminated (.fmtDigitTooLarge 0x99) ∧
    (stepped ((at10 0xF600).setReg 6 0xC1)).run = .terminated (.fmtBadChar 0xC1) ∧
    (stepped (at10 0xF0A9)).run = .terminated (.fmtBadRow 10) ∧ (stepped (at10 0xF07B)).run = .terminated (.fmtBadCol 11) ∧
    fieldsOf (wordOfBytes (Memory.read (at10 0xF07B).rom 0x10) (Memory.read (at10 0xF07B).rom 0x11)) = fieldsOf 0xF07B := by
  decide

/-- FailingStepChangesOnlyRunAndRsn, RunEndsWellExactlyAtTheTwoHalts and ReasonsRecordTheirInformation: a failing step
for each reason a running machine can give. -/
theorem witness_failing_steps :
    (stepped { start with pc := 0 }).run = .terminated .haltPcZero ∧
    (stepped { start with plen := 0x10 }).run = .terminated (.haltOutOfProgram 0x10) ∧
    (stepped (at10 0x0800)).run = .terminated (.fmtBadRegister .op1 8) ∧
    (stepped (at10 0x7001)).run = .terminated (.fmtNonzeroField .op3 1) ∧
    (stepped (at10 0x5001)).run = .terminated (.fmtOddJumpTarget 1) ∧
    (stepped ((at10 0xE000).setReg 0 0x10)).run = .terminated (.fmtDigitTooLarge 0x10) ∧
    (stepped ((at10 0xF000).setReg 0 0x80)).run = .terminated (.fmtBadChar 0x80) ∧
    (stepped (at10 0xF080)).run = .terminated (.fmtBadRow 8) ∧ (stepped (at10 0xF008)).run = .terminated (.fmtBadCol 8) ∧
    (stepped { start with pc := 5 }).run = .terminated (.fetchMisaligned 5) ∧
    (stepped { start with pc := 0xFFF + 1, plen := 0x1001 }).run = .terminated (.boundsFetch 0x1000) ∧
    (stepped { at10 0xD000 with a := 0xFFE }).run = .terminated (.boundsData .ram 0x1000) ∧
    (stepped { at10 0x4000 with m := true }).run = .terminated (.resourceRomReadOnly 0) ∧
    step (at10 0x0800) = .next (stepped (at10 0x0800)) ∧ (at10 0x0800).run = .running := by
  refine ⟨by decide, by decide, by decide, by decide, by decide, by decide, by decide, by decide, by decide, by decide,
    by decide, by decide, by decide, rfl, rfl⟩

theorem witness_InvariantHoldsAfterConstruction :
    Config.reference.Legal ∧ ({ ramSize := 1, romSize := 1, romWritable := true } : Config).Legal ∧
    ({ ramSize := 65536, romSize := 65536, romWritable := false } : Config).Legal := by decide

/-- EveryStepKeepsTheInvariant and EveryEventSequenceKeepsTheInvariant: a state in use that has the invariant. -/
theorem witness_EveryStepKeepsTheInvariant :
    used.Inv ∧ (at10 0xF000).Inv ∧ step (at10 0xF000) = .next (stepped (at10 0xF000)) ∧ (stepped (at10 0xF000)).disp[0] = 0 :=
  ⟨by decide, by decide, rfl, by decide⟩

theorem witness_LoadStartsANewRunOrChangesNothing :
    (∃ (s : State) (bytes : List Byte), s.Inv ∧ s.cfg.romSize + 1 = bytes.length) ∧
    ∃ (s : State) (bytes : List Byte), s.Inv ∧ bytes.length = s.cfg.romSize :=
  ⟨⟨{ State.reset with cfg := { writable with romSize := 2 } }, [1, 2, 3], by decide⟩,
    ⟨{ State.reset with cfg := { writable with romSize := 2 } }, [1, 2], by decide⟩⟩

theorem witness_ResetRerunsTheLoadedProgram :
    used.cfg.romWritable = false ∧ used.load [0, 1] = .ok (loaded [0, 1]) ∧
    Sys2Proof.core.run 1 (loaded [0, 1]) = .next (stepped (loaded [0, 1])) := ⟨rfl, rfl, rfl⟩

theorem witness_SettersAcceptExactlyTheirRanges :
    (255 : Byte).toNat = 255 ∧ (0xFFFE : Word).toNat % 2 = 0 ∧ HostAction.attempt (.setPc (-1)) start = .error .rejected ∧
    (((8 : Int) < 0 ∨ 7 < (8 : Int)) ∧ (255 : Int) < 256 ∧ (0xFFFF : Int) < 0x10000 ∧ (1 : Int) % 2 = 1) :=
  ⟨by decide, by decide, rfl, by decide⟩

theorem witness_DirectMemoryAccessIsStrict : start.strictWrite .rom 0 1 = .error .readOnly ∧
    (4095 < start.sizeOf .ram ∧ 4095 < start.sizeOf .rom ∧ (start.sizeOf .rom : Int) ≤ 4096) ∧
    (∃ s : State, s.cfg.romWritable = true ∧ 4095 < s.cfg.romSize) ∧ (∃ s : State, s.cfg.romWritable = false) ∧
    ∃ s : State, (Space.rom = .rom → s.cfg.romWritable = true) ∧ (s.sizeOf .rom : Int) ≤ 4096 :=
  ⟨rfl, by decide, ⟨{ start with cfg := writable }, by decide⟩, ⟨start, rfl⟩, ⟨{ start with cfg := writable }, by decide⟩⟩

/-- Both reports of a bounded run, with and without ticks. -/
theorem witness_BoundedRunReports :
    runBound 1 [] (at10 0x0001) = .next (.boundReached, stepped (at10 0x0001)) ∧
    runBound 1 [2] (at10 0x0800) = .next (.terminated (.fmtBadRegister .op1 8), stepped (at10 0x0800)) := ⟨rfl, rfl⟩

theorem witness_AssemblyAndDisassemblyAreInverse :
    ((decodeWord 0xF777).wellFormed = true ∧ (decodeWord 0xF777).opcode ≠ .setT) ∧
    ((decodeWord 0xBFF0).wellFormed = true ∧ (decodeWord 0xBFF0).opcode = .setT) ∧
    assemble (.line .draw [.reg 7, .num 7, .num 7]) = some 0xF777 ∧ (decodeWord 0xF778).wellFormed = false := by decide

/-- TolerantReadsGiveZeroBeyondTheirExtent (its last clause), StoredCodeIsFetchedNext and PlacedWordIsRunNext. -/
theorem witness_memory_rules :
    (State.reset.plen ≤ State.reset.cfg.romSize ∧ State.reset.cfg.romSize = 4096) ∧
    (∃ (s : State) (p : Word), s.Inv ∧ s.m = true ∧ s.cfg.romWritable = true ∧ s.a.toNat + 1 = s.cfg.romSize ∧
      exec (.write 0 0 0) s = .next (after 0x4000 s) ∧ p.toNat % 2 = 0 ∧ p.toNat + 1 = s.a.toNat) ∧
    (used.Inv ∧ 2 ≤ used.cfg.romSize) ∧ ∃ s : State, s.Inv ∧ s.cfg.romSize = 2 :=
  ⟨by decide, ⟨{ with2 0 1 1 0 with m := true, cfg := writable, a := 0xFFF }, 0xFFE, by decide, rfl, rfl, rfl, rfl, rfl, rfl⟩,
    by decide, ⟨{ State.reset with cfg := { writable with romSize := 2 } }, by decide⟩⟩

end Sys2Proof.Tests
end

section
/-! PROOFS. The invariant of 10_state.md (R48): what keeps it, operation by operation, then through every step and every
host action. -/

namespace Sys2Proof.Machine

/-! ### The invariant through each state operation -/

section Invariant

variable {s : State}

@[simp] theorem State.inv_setReg (r : RegIx) (v : Byte) : (s.setReg r v).Inv ↔ s.Inv := Iff.rfl
@[simp] theorem State.inv_setTimer (v : Byte) : (s.setTimer v).Inv ↔ s.Inv := Iff.rfl
@[simp] theorem State.inv_setAddr (v : Word) : (s.setAddr v).Inv ↔ s.Inv := Iff.rfl
@[simp] theorem State.inv_setSelect (v : Bool) : (s.setSelect v).Inv ↔ s.Inv := Iff.rfl
@[simp] theorem State.inv_toggleSelect : s.toggleSelect.Inv ↔ s.Inv := Iff.rfl
@[simp] theorem State.inv_terminate (q : Reason) : (s.terminate q).Inv ↔ s.Inv := Iff.rfl
@[simp] theorem State.inv_keyTaken : s.keyTaken.Inv ↔ s.Inv := by simp [State.Inv]
@[simp] theorem State.inv_tick : s.tick.Inv ↔ s.Inv := by simp [State.Inv]

/-- A pc keeps the invariant when it is even (R48). -/
theorem State.Inv.commit (inv : s.Inv) {p : Word} (even : p.toNat % 2 = 0) : (s.commit p).Inv := by
  obtain ⟨legal, -, rest⟩ := inv
  exact ⟨legal, even, rest⟩

/-- A store at an index of the memory keeps the invariant (R61). -/
theorem State.Inv.poke (inv : s.Inv) {sp : Space} {a : Nat} (inside : a < s.sizeOf sp) (v : Byte) :
    (s.poke sp a v).Inv := by
  obtain ⟨legal, even, plen, ramWf, ramIn, romWf, romIn, disp⟩ := inv
  cases sp with
  | ram => exact ⟨legal, even, plen, Memory.wf_write a v ramWf, Memory.within_write v ramIn inside, romWf, romIn, disp⟩
  | rom => exact ⟨legal, even, plen, ramWf, ramIn, Memory.wf_write a v romWf, Memory.within_write v romIn inside, disp⟩

theorem State.Inv.dataStore (inv : s.Inv) {a : Nat} (inside : a < s.sizeOf s.selected) (v : Byte) :
    (s.dataStore a v).Inv := inv.poke inside v

theorem State.sizeOf_dataStore (sp : Space) (a : Nat) (v : Byte) : (s.dataStore a v).sizeOf sp = s.sizeOf sp := by
  cases sp <;> simp [State.sizeOf]

/-- A character of at most 0x7F in one cell keeps the invariant (R45). -/
theorem State.Inv.displayWrite (inv : s.Inv) (k : Fin 64) {v : Byte} (char : v.toNat ≤ 0x7F) :
    (s.displayWrite k v).Inv := by
  obtain ⟨legal, even, plen, ramWf, ramIn, romWf, romIn, disp⟩ := inv
  refine ⟨legal, even, plen, ramWf, ramIn, romWf, romIn, fun j => ?_⟩
  simp only [State.displayWrite_disp, Fin.getElem_fin, Vector.getElem_set]
  split
  · exact char
  · exact disp j

/-- The blank display holds spaces. -/
theorem blankDisplay_le (k : Fin 64) : ((Vector.replicate 64 (0x20 : Byte))[k]).toNat ≤ 0x7F := by
  simp

theorem State.Inv.displayClear (inv : s.Inv) : s.displayClear.Inv := by
  obtain ⟨legal, even, plen, ramWf, ramIn, romWf, romIn, -⟩ := inv
  exact ⟨legal, even, plen, ramWf, ramIn, romWf, romIn, blankDisplay_le⟩

theorem State.Inv.machineReset (inv : s.Inv) : s.machineReset.Inv := by
  obtain ⟨legal, -, plen, -, -, romWf, romIn, -⟩ := inv
  exact ⟨legal, rfl, plen, rfl, rfl, romWf, romIn, blankDisplay_le⟩

/-! The pc values a step can commit are even when pc is (R130). -/

theorem State.Inv.pc_even (inv : s.Inv) : s.pc.toNat % 2 = 0 := by
  obtain ⟨-, even, -⟩ := inv
  exact even

theorem State.Inv.nextPc_even (inv : s.Inv) : s.nextPc.toNat % 2 = 0 := by
  have even := inv.pc_even
  simp only [State.nextPc]
  bv_omega

theorem State.Inv.skipIf_even (inv : s.Inv) (cond : Bool) : (s.skipIf cond).toNat % 2 = 0 := by
  cases cond with
  | false => exact inv.nextPc_even
  | true =>
    have even := inv.pc_even
    show (s.pc + 4).toNat % 2 = 0
    bv_omega

/-! ### The invariant through an instruction and a step -/

/-- Every instruction keeps the invariant, whatever its operands. -/
theorem exec_keeps_inv {i : Instr} {t : State} (inv : s.Inv) (h : exec i s = .next t) : t.Inv := by
  have next := inv.nextPc_even
  rcases exec_cases h with ⟨q, rfl⟩ | ⟨d, v, -, rfl⟩ | ⟨d, -, rfl⟩ | ⟨v, -, -, inside, rfl⟩ |
    ⟨v1, v2, v3, -, -, inside, rfl⟩ | ⟨-, rfl⟩ | ⟨addr, -, rfl⟩ | ⟨op2, -, rfl⟩ | ⟨k, v, -, char, rfl⟩ |
    ⟨target, -, even, rfl⟩ | ⟨a, b, -, rfl⟩ | ⟨a, b, -, rfl⟩
  · exact (State.inv_terminate q).2 inv
  · exact ((State.inv_setReg d v).2 inv).commit next
  · exact ((State.inv_setReg d _).2 (State.inv_keyTaken.2 inv)).commit next
  · exact (inv.dataStore inside v).commit next
  · have stored1 := inv.dataStore (a := s.a.toNat) (by omega) v1
    have stored2 := stored1.dataStore (a := s.a.toNat + 1)
      (by rw [State.sizeOf_dataStore, State.dataStore_selected]; omega) v2
    have stored3 := stored2.dataStore (a := s.a.toNat + 2)
      (by simpa only [State.sizeOf_dataStore, State.dataStore_selected] using inside) v3
    exact stored3.commit next
  · exact (State.inv_toggleSelect.2 inv).commit next
  · exact ((State.inv_setAddr _).2 inv).commit next
  · exact ((State.inv_setTimer _).2 inv).commit next
  · exact (inv.displayWrite k char).commit next
  · exact inv.commit (by rw [BitVec.toNat_setWidth]; omega)
  · exact inv.commit (inv.skipIf_even _)
  · exact inv.commit (inv.skipIf_even _)

/-- Every step keeps the invariant (R48). -/
theorem step_keeps_inv {t : State} (inv : s.Inv) (h : step s = .next t) : t.Inv := by
  rcases step_next_cases h with rfl | ⟨q, rfl⟩ | ⟨w, -, he⟩
  · exact inv
  · exact (State.inv_terminate q).2 inv
  · exact exec_keeps_inv inv he

end Invariant

/-- Settles O44: the states `exec_cases` and `step_next_cases` list all have the invariant. -/
theorem everyStepKeepsTheInvariant : Obligations.EveryStepKeepsTheInvariant :=
  fun _ _ inv h => step_keeps_inv inv h

/-! ### The invariant through a host action and an event sequence -/

section HostActions

variable {s t : State}

theorem State.load_keeps_inv {bytes : List Byte} (inv : s.Inv) (h : s.load bytes = .ok t) : t.Inv := by
  unfold State.load at h
  split at h
  · cases h
  · next fits =>
    have fits' : bytes.length ≤ s.cfg.romSize := Nat.le_of_not_lt fits
    obtain ⟨legal, even, -, ramWf, ramIn, -, -, disp⟩ := inv.machineReset
    cases h
    exact ⟨legal, even, fits', ramWf, ramIn, Memory.wf_ofBytes bytes, Memory.within_ofBytes 0 bytes (by simpa using fits'),
      disp⟩

theorem State.setRegister_keeps_inv {i v : Int} (inv : s.Inv) (h : s.setRegister i v = .ok t) : t.Inv := by
  unfold State.setRegister at h
  split at h
  · split at h
    · cases h; exact inv
    · cases h
  · cases h

/-- The setter of pc accepts only even values (R228). -/
theorem State.setPc_keeps_inv {v : Int} (inv : s.Inv) (h : s.setPc v = .ok t) : t.Inv := by
  unfold State.setPc at h
  split at h
  · obtain ⟨legal, -, rest⟩ := inv
    cases h
    exact ⟨legal, by simp only [BitVec.toNat_ofInt]; omega, rest⟩
  · cases h

theorem State.setTimerTo_keeps_inv {v : Int} (inv : s.Inv) (h : s.setTimerTo v = .ok t) : t.Inv := by
  unfold State.setTimerTo at h
  split at h
  · cases h; exact inv
  · cases h

theorem State.setAddress_keeps_inv {v : Int} (inv : s.Inv) (h : s.setAddress v = .ok t) : t.Inv := by
  unfold State.setAddress at h
  split at h
  · cases h; exact inv
  · cases h

theorem State.strictWrite_keeps_inv {sp : Space} {a v : Int} (inv : s.Inv) (h : s.strictWrite sp a v = .ok t) : t.Inv := by
  unfold State.strictWrite at h
  split at h
  · cases h
  · split at h
    · cases h; exact inv.poke (by omega) _
    · cases h

/-- A value the display's host paths accept is a character of at most 0x7F (R222, R223). -/
theorem toNat_ofInt_le_of_char {v : Int} (char : 0 ≤ v ∧ v ≤ 0x7F) : (BitVec.ofInt 8 v).toNat ≤ 0x7F := by
  simp only [BitVec.toNat_ofInt]; omega

theorem State.displayDraw_keeps_inv {ascii row col : Int} (inv : s.Inv) (h : s.displayDraw ascii row col = .ok t) :
    t.Inv := by
  unfold State.displayDraw at h
  split at h
  · cases h
  · next char =>
    split at h
    · cases h; exact inv.displayWrite _ (toNat_ofInt_le_of_char (not_not.1 char))
    · cases h

theorem State.displayPoke_keeps_inv {k v : Int} (inv : s.Inv) (h : s.displayPoke k v = .ok t) : t.Inv := by
  unfold State.displayPoke at h
  split at h
  · cases h
  · next char =>
    split at h
    · cases h; exact inv.displayWrite _ (toNat_ofInt_le_of_char (not_not.1 char))
    · cases h

/-- An accepted host action keeps the invariant. -/
theorem HostAction.attempt_keeps_inv {act : HostAction} (inv : s.Inv) (h : act.attempt s = .ok t) : t.Inv := by
  cases act with
  | tick => cases h; exact State.inv_tick.2 inv
  | load bytes => exact State.load_keeps_inv inv h
  | reset => cases h; exact inv.machineReset
  | setRegister i v => exact State.setRegister_keeps_inv inv h
  | setPc v => exact State.setPc_keeps_inv inv h
  | setTimer v => exact State.setTimerTo_keeps_inv inv h
  | setAddress v => exact State.setAddress_keeps_inv inv h
  | setSelect v => cases h; exact inv
  | writeMemory sp a v => exact State.strictWrite_keeps_inv inv h
  | displayClear => cases h; exact inv.displayClear
  | displayDraw ascii row col => exact State.displayDraw_keeps_inv inv h
  | displayPoke k v => exact State.displayPoke_keeps_inv inv h
  | queueKey k => cases h; exact inv

/-- Every host action keeps the invariant; a rejected one changes nothing (R228, R229, R251). -/
theorem HostAction.apply_keeps_inv (act : HostAction) (inv : s.Inv) : (act.apply s).Inv := by
  unfold HostAction.apply
  split
  · next accepted => exact HostAction.attempt_keeps_inv inv accepted
  · exact inv

/-- Every event answers a state with the invariant. -/
theorem runEvent_keeps_inv (e : Event) (inv : s.Inv) : ∃ u, runEvent e s = .next u ∧ u.Inv := by
  cases e with
  | step =>
    obtain ⟨u, hu⟩ := step_next s
    exact ⟨u, hu, step_keeps_inv inv hu⟩
  | host act => exact ⟨_, rfl, act.apply_keeps_inv inv⟩

end HostActions

/-- Settles O45, by induction on the events. -/
theorem everyEventSequenceKeepsTheInvariant : Obligations.EveryEventSequenceKeepsTheInvariant := by
  intro events
  induction events with
  | nil => exact fun s inv => ⟨s, rfl, inv⟩
  | cons e rest ih =>
    intro s inv
    obtain ⟨u, hu, invU⟩ := runEvent_keeps_inv e inv
    obtain ⟨t, ht, invT⟩ := ih u invU
    exact ⟨t, (runEvents_cons e rest s t).2 ⟨u, hu, ht⟩, invT⟩

/-! ### The invariant at the start -/

/-- Construction with legal parameters gives the invariant (R250). -/
theorem State.inv_construct {cfg : Config} (legal : cfg.Legal) : (State.construct cfg).Inv :=
  ⟨legal, rfl, Nat.zero_le _, rfl, rfl, rfl, rfl, blankDisplay_le⟩

/-- Settles O43: the reset state is the construction in the reference configuration (log 1). -/
theorem invariantHoldsAfterConstruction : Obligations.InvariantHoldsAfterConstruction :=
  ⟨fun _ legal => State.inv_construct legal, State.inv_construct (cfg := Config.reference) (by decide)⟩

end Sys2Proof.Machine
end

section
/-! PROOFS. Which instructions change which piece of the state of 10_state.md (R31-R45), and that none reads the
display. -/

namespace Sys2Proof.Machine

/-! ### What each instruction writes -/

/-- The field that names the register an instruction writes (R140, R141, R142, R150, R175, R177, R178). -/
def destinationOf : Instr → Option Nibble
  | .store op1 _ => some op1
  | .add _ _ op3 => some op3
  | .sub _ _ op3 => some op3
  | .read op1 _ _ => some op1
  | .readKeyboard op1 _ _ => some op1
  | .readT op1 _ _ => some op1
  | .convertByteToAscii _ op2 _ => some op2
  | _ => none

/-- A register writer records a reason, or writes the register its destination field names; READ_KEYBOARD alone has
asked the provider before. -/
theorem exec_writes_destination {i : Instr} {dest : Nibble} {s t : State} (names : destinationOf i = some dest)
    (h : exec i s = .next t) :
    (∃ q, t = s.terminate q) ∨
    ∃ d v u, dest = nibOf d ∧ (u = s ∨ i.opcode = .readKeyboard ∧ u = s.keyTaken) ∧
      t = (u.setReg d v).commit s.nextPc := by
  cases i <;> cases names <;> refine (conclude_cases h).symm.imp (fun ⟨q, _, ended⟩ => ⟨q, ended⟩) ?_ <;>
    rintro ⟨w, p, hok, rfl⟩
  case store =>
    simp only [except_bind_eq_ok, checkReg_eq_ok] at hok
    obtain ⟨d, named, hw⟩ := hok
    cases hw; exact ⟨d, _, s, named, .inl rfl, rfl⟩
  case add | sub =>
    simp only [except_bind_eq_ok, Prod.exists, checkRegRegReg_eq_ok] at hok
    obtain ⟨_, _, d, ⟨-, -, named⟩, hw⟩ := hok
    cases hw; exact ⟨d, _, s, named, .inl rfl, rfl⟩
  case read | readT =>
    simp only [except_bind_eq_ok, checkRegZeroZero_eq_ok] at hok
    obtain ⟨d, ⟨named, -⟩, hw⟩ := hok
    cases hw; exact ⟨d, _, s, named, .inl rfl, rfl⟩
  case readKeyboard =>
    simp only [except_bind_eq_ok, checkRegZeroZero_eq_ok] at hok
    obtain ⟨d, ⟨named, -⟩, hw⟩ := hok
    cases hw; exact ⟨d, _, s.keyTaken, named, .inr ⟨rfl, rfl⟩, rfl⟩
  case convertByteToAscii =>
    simp only [except_bind_eq_ok, Prod.exists, checkRegRegZero_eq_ok] at hok
    obtain ⟨_, d, ⟨-, named, -⟩, _, -, hw⟩ := hok
    cases hw; exact ⟨d, _, s, named, .inl rfl, rfl⟩

/-- A register write leaves every other register. -/
theorem State.setReg_x_of_ne (s : State) {r d : RegIx} (ne : r ≠ d) (v : Byte) : (s.setReg d v).x[r] = s.x[r] := by
  have other := State.reg_setReg s d r v
  rwa [if_neg (Ne.symm ne)] at other

/-- Settles O24: the next state is a termination, or one register write after at most a read of the provider. -/
theorem registerWritersFrame : Obligations.RegisterWritersFrame := by
  intro i dest s t writer h
  have names : destinationOf i = some dest := by
    rcases writer with ⟨_, rfl⟩ | ⟨_, _, rfl⟩ | ⟨_, _, rfl⟩ | ⟨_, _, rfl⟩ | ⟨_, _, rfl⟩ | ⟨_, _, rfl⟩ | ⟨_, _, rfl⟩ <;> rfl
  obtain ⟨q, rfl⟩ | ⟨d, v, u, rfl, asked, rfl⟩ := exec_writes_destination names h
  · exact ⟨fun _ _ => rfl, rfl, rfl, rfl, rfl, rfl, rfl, fun sp _ => by cases sp <;> rfl, fun _ => ⟨rfl, rfl⟩⟩
  · have other : ∀ r : RegIx, nibOf r ≠ nibOf d → ((u.setReg d v).commit s.nextPc).x[r] = u.x[r] :=
      fun r ne => State.setReg_x_of_ne u (fun same => ne (congrArg nibOf same)) v
    obtain rfl | ⟨keyboard, rfl⟩ := asked
    · exact ⟨other, rfl, rfl, rfl, rfl, rfl, rfl, fun sp _ => by cases sp <;> rfl, fun _ => ⟨rfl, rfl⟩⟩
    · refine ⟨fun r ne => by simpa using other r ne, ?_⟩
      simp [keyboard, State.memOf]

/-! ### Which instructions change which field -/

/-- A data write to ROM leaves RAM. -/
theorem State.dataStore_ram_of_rom {s : State} (rom : s.m = true) (a : Nat) (v : Byte) : (s.dataStore a v).ram = s.ram := by
  rw [State.dataStore_to_rom rom, State.poke_rom_ram]

/-- A data write to RAM leaves ROM. -/
theorem State.dataStore_rom_of_ram {s : State} (ram : s.m = false) (a : Nat) (v : Byte) : (s.dataStore a v).rom = s.rom := by
  rw [State.dataStore_to_ram ram, State.poke_ram_rom]

/-- Settles O28: each outcome of `exec_cases` changes only the fields its instruction names. -/
theorem eachStateChangesOnlyByItsWriters : Obligations.EachStateChangesOnlyByItsWriters := by
  intro i s t h
  rcases exec_cases h with ⟨q, rfl⟩ | ⟨d, v, op, rfl⟩ | ⟨d, op, rfl⟩ | ⟨v, op, writable, -, rfl⟩ |
    ⟨v1, v2, v3, op, writable, -, rfl⟩ | ⟨op, rfl⟩ | ⟨addr, rfl, rfl⟩ | ⟨op2, op, rfl⟩ | ⟨k, v, op, -, rfl⟩ |
    ⟨target, -, -, rfl⟩ | ⟨a, b, -, rfl⟩ | ⟨a, b, -, rfl⟩
  · simp
  · have listed : i.opcode ∈ [Opcode.store, .add, .sub, .read, .readKeyboard, .readT, .convertByteToAscii] := by
      revert op; cases i.opcode <;> decide
    simp [listed]
  · simp [op]
  · cases hm : s.m with
    | false => simp [op, State.dataStore_rom_of_ram, hm]
    | true => simp [op, State.dataStore_ram_of_rom, hm, writable hm]
  · cases hm : s.m with
    | false => simp [op, State.dataStore_rom_of_ram, hm]
    | true => simp [op, State.dataStore_ram_of_rom, hm, writable hm]
  · simp [op, State.toggleSelect]
  · simp [Instr.opcode]
  · simp [op]
  · simp [op]
  · simp
  · simp
  · simp

/-! ### Read-only ROM -/

/-- A step changes neither ROM that is not writable, nor PLEN, nor the configuration. -/
theorem step_keeps_readOnly_rom {s t : State} (readOnly : s.cfg.romWritable = false) (h : step s = .next t) :
    t.rom = s.rom ∧ t.plen = s.plen ∧ t.cfg = s.cfg := by
  rcases step_next_cases h with rfl | ⟨q, rfl⟩ | ⟨w, -, he⟩
  · exact ⟨rfl, rfl, rfl⟩
  · exact ⟨rfl, rfl, rfl⟩
  · obtain ⟨cfg, plen, -, -, -, -, -, romWriter, -⟩ := eachStateChangesOnlyByItsWriters _ s t he
    refine ⟨by_contra fun changed => ?_, plen, cfg⟩
    obtain ⟨-, writable, -⟩ := romWriter changed
    simp [readOnly] at writable

/-- Settles O29, by induction on the number of steps. -/
theorem readOnlyRomNeverChanges : Obligations.ReadOnlyRomNeverChanges := by
  intro n
  induction n with
  | zero =>
    intro s t _ h
    cases h
    exact ⟨rfl, rfl, rfl⟩
  | succ n ih =>
    intro s t readOnly h
    obtain ⟨u, hu, ht⟩ := (core_run_succ n s t).1 h
    obtain ⟨romU, plenU, cfgU⟩ := step_keeps_readOnly_rom readOnly hu
    obtain ⟨romT, plenT, cfgT⟩ := ih u t (by rw [cfgU]; exact readOnly) ht
    exact ⟨romT.trans romU, plenT.trans plenU, cfgT.trans cfgU⟩

/-! ### The display is never read -/

/-- Two states that differ at most in the display. -/
def SameButDisplay (s' s : State) : Prop := ∃ disp : Vector Byte 64, s' = { s with disp := disp }

/-- Two handlers' answers that raise the same reason, or write states that differ at most in the display and give the
same next pc. -/
inductive AnswersAgree : Except Reason (State × Word) → Except Reason (State × Word) → Prop
  | ok {w' w : State} {p : Word} (same : SameButDisplay w' w) : AnswersAgree (.ok (w', p)) (.ok (w, p))
  | error (q : Reason) : AnswersAgree (.error q) (.error q)

/-- Handlers that begin with the same check agree when what follows it agrees. -/
theorem AnswersAgree.bind {α : Type} {check : Except Reason α} {f' f : α → Except Reason (State × Word)}
    (agree : ∀ a, AnswersAgree (f' a) (f a)) : AnswersAgree (check >>= f') (check >>= f) := by
  cases check with
  | ok a => exact agree a
  | error q => exact .error q

theorem SameButDisplay.commit {s' s : State} (same : SameButDisplay s' s) (p : Word) :
    SameButDisplay (s'.commit p) (s.commit p) := by
  obtain ⟨disp, rfl⟩ := same
  exact ⟨disp, rfl⟩

theorem SameButDisplay.terminate {s' s : State} (same : SameButDisplay s' s) (q : Reason) :
    SameButDisplay (s'.terminate q) (s.terminate q) := by
  obtain ⟨disp, rfl⟩ := same
  exact ⟨disp, rfl⟩

theorem SameButDisplay.poke {s' s : State} (same : SameButDisplay s' s) (sp : Space) (a : Nat) (v : Byte) :
    SameButDisplay (s'.poke sp a v) (s.poke sp a v) := by
  obtain ⟨disp, rfl⟩ := same
  cases sp <;> exact ⟨disp, rfl⟩

theorem SameButDisplay.dataStore {s' s : State} (same : SameButDisplay s' s) (a : Nat) (v : Byte) :
    SameButDisplay (s'.dataStore a v) (s.dataStore a v) := by
  have poked := same.poke s.selected a v
  obtain ⟨disp, rfl⟩ := same
  exact poked

theorem SameButDisplay.keyTaken {s' s : State} (same : SameButDisplay s' s) : SameButDisplay s'.keyTaken s.keyTaken := by
  obtain ⟨disp, rfl⟩ := same
  unfold State.keyTaken
  cases s.keys <;> exact ⟨disp, rfl⟩

theorem SameButDisplay.setReg {s' s : State} (same : SameButDisplay s' s) (r : RegIx) (v : Byte) :
    SameButDisplay (s'.setReg r v) (s.setReg r v) := by
  obtain ⟨disp, rfl⟩ := same
  exact ⟨disp, rfl⟩

/-- Agreeing handlers end in states that differ at most in the display. -/
theorem SameButDisplay.conclude {s' s t : State} {r' r : Except Reason (State × Word)} (same : SameButDisplay s' s)
    (h : conclude s r = .next t) (agree : AnswersAgree r' r) :
    ∃ t', Machine.conclude s' r' = .next t' ∧ SameButDisplay t' t := by
  cases agree with
  | ok sameW => cases h; exact ⟨_, rfl, sameW.commit _⟩
  | error q => cases h; exact ⟨_, rfl, same.terminate q⟩

/-- No instruction reads the display: DRAW alone touches it, and writes a cell. -/
theorem exec_sameButDisplay {i : Instr} {s t : State} (disp : Vector Byte 64) (h : exec i s = .next t) :
    ∃ t', exec i { s with disp := disp } = .next t' ∧ SameButDisplay t' t := by
  have same : SameButDisplay { s with disp := disp } s := ⟨disp, rfl⟩
  cases i with
  | store op1 imm => exact same.conclude h (.bind fun d => .ok (same.setReg d imm))
  | add op1 op2 op3 => exact same.conclude h (.bind fun ⟨a, b, d⟩ => .ok (same.setReg d _))
  | sub op1 op2 op3 => exact same.conclude h (.bind fun ⟨a, b, d⟩ => .ok (same.setReg d _))
  | read op1 op2 op3 => exact same.conclude h (.bind fun d => .ok (same.setReg d _))
  | write op1 op2 op3 =>
    simp only [exec, execWrite, dataWrite, bind_assoc, pure_bind] at h ⊢
    exact same.conclude h (.bind fun _ => .bind fun _ => .bind fun _ => .ok (same.dataStore _ _))
  | jump target => exact same.conclude h (.bind fun _ => .ok same)
  | readKeyboard op1 op2 op3 => exact same.conclude h (.bind fun d => .ok (same.keyTaken.setReg d _))
  | switchMemory op1 op2 op3 => exact same.conclude h (.bind fun _ => .bind fun _ => .bind fun _ => .ok ⟨disp, rfl⟩)
  | skipEqual op1 op2 op3 => exact same.conclude h (.bind fun ⟨a, b⟩ => .ok same)
  | skipNotEqual op1 op2 op3 => exact same.conclude h (.bind fun ⟨a, b⟩ => .ok same)
  | setA addr => cases h; exact ⟨_, rfl, disp, rfl⟩
  | setT op1 op2 op3 => exact same.conclude h (.bind fun _ => .ok ⟨disp, rfl⟩)
  | readT op1 op2 op3 => exact same.conclude h (.bind fun d => .ok (same.setReg d _))
  | convertToBase10 op1 op2 op3 =>
    exact same.conclude h (.bind fun _ => .bind fun _ => .bind fun _ => .bind fun _ => .bind fun _ =>
      .ok (((same.dataStore _ _).dataStore _ _).dataStore _ _))
  | convertByteToAscii op1 op2 op3 =>
    exact same.conclude h (.bind fun ⟨a, d⟩ => .bind fun _ => .ok (same.setReg d _))
  | draw op1 op2 op3 =>
    exact same.conclude h (.bind fun _ => .bind fun _ => .bind fun _ => .bind fun _ => .ok ⟨_, rfl⟩)

/-- Settles O30: the checks before the fetch and the fetch itself do not read the display either. -/
theorem displayIsNeverRead : Obligations.DisplayIsNeverRead := by
  intro s t disp h
  have checkSame : terminationCheck { s with disp := disp } = terminationCheck s := rfl
  have fetchSame : fetch { s with disp := disp } = fetch s := rfl
  rcases step_cases s with ⟨q, ended, hs⟩ | ⟨running, q, failed | ⟨checked, failed⟩, hs⟩ | ⟨running, checked, w, fetched, hs⟩ <;>
    rw [hs] at h
  · cases h; exact ⟨disp, step_terminated (s := { s with disp := disp }) ended⟩
  · cases h; exact ⟨disp, step_check_fails (s := { s with disp := disp }) running (checkSame.trans failed)⟩
  · cases h
    exact ⟨disp, step_fetch_fails (s := { s with disp := disp }) running (checkSame.trans checked) (fetchSame.trans failed)⟩
  · obtain ⟨t', ht', disp', rfl⟩ := exec_sameButDisplay disp h
    have ran := step_runs (s := { s with disp := disp }) running (checkSame.trans checked) (fetchSame.trans fetched)
    exact ⟨disp', ran.trans ht'⟩

end Sys2Proof.Machine
end

section
/-! PROOFS. The memory rules: read after write (R61, R69), the tolerant reads (R66), and stored code that the next fetch
reads (R80). -/

namespace Sys2Proof.Machine

/-- Settles O57: the list laws of a memory in canonical form (log 14). -/
theorem storedBytesReadBack : Obligations.StoredBytesReadBack :=
  ⟨fun _ a b v wf => ⟨Memory.read_write a b v wf, Memory.wf_write a v wf⟩,
    fun _ _ wf1 wf2 same => Memory.eq_of_read_eq wf1 wf2 same⟩

/-- A read at or past PLEN gives 0 (R66). -/
theorem State.tolRom_eq_zero {s : State} {b : Nat} (past : s.plen ≤ b) : s.tolRom b = 0 := if_neg (Nat.not_lt.2 past)

/-- Settles O58: the two reads by definition; the last clause because PLEN is within ROM_SIZE. -/
theorem tolerantReadsGiveZeroBeyondTheirExtent : Obligations.TolerantReadsGiveZeroBeyondTheirExtent :=
  ⟨fun _ _ => rfl, fun _ _ => rfl, fun _ _ fits past => State.tolRom_eq_zero (fits.trans past)⟩

/-- A WRITE into writable ROM stores x[r] at A in ROM, and goes on (R151). -/
theorem exec_write_rom (r : RegIx) {s : State} (rom : s.m = true) (writable : s.cfg.romWritable = true)
    (inside : s.a.toNat < s.cfg.romSize) :
    exec (.write (nibOf r) 0 0) s = .next ((s.poke .rom s.a.toNat s.x[r]).commit s.nextPc) := by
  have fits : s.a.toNat < s.sizeOf s.selected := by rwa [State.selected_rom rom]
  rw [← State.dataStore_to_rom rom]
  exact execWrite_valid r s (fun _ => writable) fits

/-- Settles O59: a fetch reads the two raw ROM bytes at pc, and each is read after the store at A. -/
theorem storedCodeIsFetchedNext : Obligations.StoredCodeIsFetchedNext := by
  intro s t r p inv rom writable inside h even fits
  obtain ⟨-, -, -, -, -, romWf, -, -⟩ := inv
  rw [exec_write_rom r rom writable inside] at h
  cases h
  have stored (b : Nat) : Memory.read ((s.poke .rom s.a.toNat s.x[r]).commit s.nextPc).rom b =
      if b = s.a.toNat then s.x[r] else Memory.read s.rom b := Memory.read_write _ b _ romWf
  exact fetch_eq_ok.2 ⟨even, fits, congrArg₂ wordOfBytes (stored _).symm (stored _).symm⟩

end Sys2Proof.Machine
end

section
/-! PROOFS. The encoding of 30_encoding.md: a word as an opcode and three operand nibbles (R91, R99), the opcode
table's test, and the field checks of R93-R97. -/

namespace Sys2Proof

/-! ### Every word and every instruction, as an opcode and three nibbles -/

theorem Opcode.ofNibble_code (o : Opcode) : Opcode.ofNibble o.code = o := by cases o <;> rfl

theorem Opcode.code_ofNibble (n : Nibble) : (Opcode.ofNibble n).code = n := by revert n; decide

/-- The instruction an opcode and three operand nibbles stand for. -/
def Opcode.instr (o : Opcode) (op1 op2 op3 : Nibble) : Instr :=
  instrOf { opcode := o.code, op1, op2, op3, byteOperand := op2 ++ op3, addressOperand := op1 ++ op2 ++ op3 }

/-- Every instruction is its opcode and three nibbles, also where it holds two or three of them as one operand. -/
theorem Instr.exists_nibbles (i : Instr) : ∃ op1 op2 op3 : Nibble, i = i.opcode.instr op1 op2 op3 := by
  cases i with
  | store op1 imm =>
    obtain ⟨op2, op3, rfl⟩ := byte_nibbles imm
    exact ⟨op1, op2, op3, rfl⟩
  | jump operand | setA operand =>
    obtain ⟨op1, op2, op3, rfl⟩ := addr_nibbles operand
    exact ⟨op1, op2, op3, rfl⟩
  | _ => exact ⟨_, _, _, rfl⟩

theorem Instr.exists_instr (i : Instr) : ∃ (o : Opcode) (op1 op2 op3 : Nibble), i = o.instr op1 op2 op3 :=
  ⟨i.opcode, i.exists_nibbles⟩

theorem Instr.eq_instr_of_opcode {i : Instr} {o : Opcode} (h : i.opcode = o) :
    ∃ op1 op2 op3 : Nibble, i = o.instr op1 op2 op3 := h ▸ i.exists_nibbles

/-- Every word has the code of an opcode in its first nibble (R99). -/
theorem Word.exists_nibbles (w : Word) : ∃ (o : Opcode) (op1 op2 op3 : Nibble), w = nibbles4 o.code op1 op2 op3 := by
  refine ⟨Opcode.ofNibble (fieldsOf w).opcode, (fieldsOf w).op1, (fieldsOf w).op2, (fieldsOf w).op3, ?_⟩
  rw [Opcode.code_ofNibble, nibbles4_fieldsOf]

theorem decodeWord_nibbles4 (o : Opcode) (op1 op2 op3 : Nibble) :
    decodeWord (nibbles4 o.code op1 op2 op3) = o.instr op1 op2 op3 := by
  rw [decodeWord, fieldsOf_nibbles4]; rfl

theorem encode_instr (o : Opcode) (op1 op2 op3 : Nibble) :
    encode (o.instr op1 op2 op3) = nibbles4 o.code op1 op2 op3 := by
  cases o with
  | store => exact encode_store op1 op2 op3
  | jump => exact encode_jump op1 op2 op3
  | setA => exact encode_setA op1 op2 op3
  | _ => rfl

@[simp] theorem opcode_instr (o : Opcode) (op1 op2 op3 : Nibble) : (o.instr op1 op2 op3).opcode = o := by cases o <;> rfl

/-! ### The round trip -/

@[simp] theorem decodeWord_encode (i : Instr) : decodeWord (encode i) = i := by
  obtain ⟨o, op1, op2, op3, rfl⟩ := i.exists_instr
  rw [encode_instr, decodeWord_nibbles4]

@[simp] theorem encode_decodeWord (w : Word) : encode (decodeWord w) = w := by
  obtain ⟨o, op1, op2, op3, rfl⟩ := Word.exists_nibbles w
  rw [decodeWord_nibbles4, encode_instr]

/-- A word is its two bytes, the high one first (R70). -/
theorem wordOfBytes_hiByte_loByte (w : Word) : wordOfBytes (hiByte w) (loByte w) = w :=
  BitVec.extractLsb'_append_extractLsb'_eq_extractLsb' (x := w) (h := rfl) |>.trans (BitVec.extractLsb'_eq_self ..)

theorem decodeBytes_encodeBytes_append (i : Instr) (rest : List Byte) :
    decodeBytes (encodeBytes i ++ rest) = .ok (i, rest) := by
  show Except.ok (decodeWord (wordOfBytes (hiByte (encode i)) (loByte (encode i))), rest) = _
  rw [wordOfBytes_hiByte_loByte, decodeWord_encode]

/-- Settles O1: encoding and decoding both go through the opcode and the three nibbles. -/
theorem decodeAndEncodeAgree : Obligations.DecodeAndEncodeAgree :=
  ⟨fun i => ⟨decodeWord_encode i, decodeBytes_encodeBytes_append i⟩, encode_decodeWord⟩

/-! ### The fields, and the opcode table -/

/-- Settles O2: a field of `k` bits from bit `b` on is the word divided by 2 ^ b, modulo 2 ^ k. -/
theorem fieldsAreBitsOfTheWord : Obligations.FieldsAreBitsOfTheWord := by
  intro w
  have below := w.isLt
  simp only [fieldsOf, BitVec.extractLsb'_toNat, Nat.shiftRight_eq_div_pow, Nat.reducePow, true_and]
  omega

/-- Settles O4: each word is decoded by evaluation. -/
theorem writtenWordsDecode : Obligations.WrittenWordsDecode := ⟨rfl, rfl, rfl, rfl, rfl, rfl⟩

theorem Opcode.row_eq_some {o : Opcode} {row : OpcodeRow} (h : o.row = some row) :
    row ∈ opcodeTable ∧ row.opcode = o :=
  ⟨List.mem_of_find?_eq_some h, by simpa using List.find?_some h⟩

/-- Every instruction's word agrees with its opcode's row, as the family RowMatch says constructor by constructor. -/
theorem rowMatch (i : Instr) : Laws.RowMatch.Statement i := by
  cases i with
  | store op1 imm => exact Laws.RowMatch.store op1 imm
  | add op1 op2 op3 => exact Laws.RowMatch.add op1 op2 op3
  | sub op1 op2 op3 => exact Laws.RowMatch.sub op1 op2 op3
  | read op1 op2 op3 => exact Laws.RowMatch.read op1 op2 op3
  | write op1 op2 op3 => exact Laws.RowMatch.write op1 op2 op3
  | jump target => exact Laws.RowMatch.jump target
  | readKeyboard op1 op2 op3 => exact Laws.RowMatch.readKeyboard op1 op2 op3
  | switchMemory op1 op2 op3 => exact Laws.RowMatch.switchMemory op1 op2 op3
  | skipEqual op1 op2 op3 => exact Laws.RowMatch.skipEqual op1 op2 op3
  | skipNotEqual op1 op2 op3 => exact Laws.RowMatch.skipNotEqual op1 op2 op3
  | setA addr => exact Laws.RowMatch.setA addr
  | setT op1 op2 op3 => exact Laws.RowMatch.setT op1 op2 op3
  | readT op1 op2 op3 => exact Laws.RowMatch.readT op1 op2 op3
  | convertToBase10 op1 op2 op3 => exact Laws.RowMatch.convertToBase10 op1 op2 op3
  | convertByteToAscii op1 op2 op3 => exact Laws.RowMatch.convertByteToAscii op1 op2 op3
  | draw op1 op2 op3 => exact Laws.RowMatch.draw op1 op2 op3

/-- Settles O5: a word is the word of the instruction it decodes to. -/
theorem validWordsPassTheOpcodeTable : Obligations.ValidWordsPassTheOpcodeTable := by
  intro w
  obtain ⟨row, found, bits, valid⟩ := rowMatch (decodeWord w)
  obtain ⟨listed, opcode⟩ := Opcode.row_eq_some found
  rw [encode_decodeWord] at bits valid
  exact ⟨row, listed, opcode, bits, valid⟩

theorem Opcode.fieldsValid_eq_true {o : Opcode} {op1 op2 op3 : Nibble} :
    o.fieldsValid op1 op2 op3 = true ↔
      o.uses.1.valid op1 = true ∧ o.uses.2.1.valid op2 = true ∧ o.uses.2.2.valid op3 = true := by
  simp [Opcode.fieldsValid, and_assoc]

theorem FieldUse.zero_valid_iff {n : Nibble} : FieldUse.zero.valid n = true ↔ n = 0 := beq_iff_eq

end Sys2Proof

namespace Sys2Proof.Machine

/-! ### The field checks, and the reason the first one that fails gives -/

/-- The reason a check raises, if it raises one. -/
def raised {α : Type} : Except Reason α → Option Reason
  | .ok _ => none
  | .error q => some q

@[simp] theorem raised_ok {α : Type} (a : α) : raised (.ok a : Except Reason α) = none := rfl
@[simp] theorem raised_error {α : Type} (q : Reason) : raised (.error q : Except Reason α) = some q := rfl

/-- Of two checks in a row the first that fails gives the reason. -/
theorem raised_bind {α β : Type} {x : Except Reason α} {f : α → Except Reason β} {later : Option Reason}
    (h : ∀ a, raised (f a) = later) : raised (x >>= f) = (raised x).or later := by
  cases x with
  | ok a => exact h a
  | error q => rfl

theorem eq_error_of_raised {α : Type} {x : Except Reason α} {q : Reason} (h : raised x = some q) : x = .error q := by
  cases x with
  | ok a => cases h
  | error q' => exact congrArg Except.error (Option.some.inj h)

/-- A handler whose first checks raise a reason ends with it, and writes nothing else (R131). -/
theorem conclude_bind_of_raised {α : Type} {x : Except Reason α} {f : α → Except Reason (State × Word)} {q : Reason}
    (s : State) (h : raised x = some q) : conclude s (x >>= f) = .next (s.terminate q) := by
  rw [eq_error_of_raised h]; rfl

/-- A register check complains as the use table says (R94). -/
theorem raised_checkReg (f : Field) (n : Nibble) : raised (checkReg f n) = FieldUse.register.complaint f n := by
  by_cases valid : n.toNat ≤ 7
  · obtain ⟨r, rfl⟩ := exists_nibOf valid
    simp only [checkReg_nibOf, raised_ok, FieldUse.complaint, if_pos valid]
  · simp only [checkReg_bad f (Nat.lt_of_not_le valid), raised_error, FieldUse.complaint, if_neg valid]

/-- A must-be-zero check complains as the use table says (R95). -/
theorem raised_checkZero (f : Field) (n : Nibble) : raised (checkZero f n) = FieldUse.zero.complaint f n := by
  by_cases valid : n = 0
  · subst valid; rfl
  · simp only [checkZero_bad f valid, raised_error, FieldUse.complaint, if_neg valid]

/-- The even-target check of JUMP (R96). -/
theorem raised_checkEven (target : Addr12) :
    raised (checkEven target) = if target.toNat % 2 = 0 then none else some (.fmtOddJumpTarget target) := by
  unfold checkEven
  by_cases even : target.toNat % 2 = 0
  · simp only [even, beq_self_eq_true, require_true, raised_ok, if_true]
  · simp only [beq_false_of_ne even, require_false, raised_error, if_neg even]

/-- The first complaint about three nibbles by their uses (R93, R211 (a)). -/
def firstComplaint (uses : FieldUse × FieldUse × FieldUse) (op1 op2 op3 : Nibble) : Option Reason :=
  (uses.1.complaint .op1 op1).or ((uses.2.1.complaint .op2 op2).or (uses.2.2.complaint .op3 op3))

/-- The first bad field of an instruction without a parity check is the first complaint by its opcode's uses. -/
theorem firstBadField_instr {o : Opcode} (noParity : o ≠ .jump) (op1 op2 op3 : Nibble) :
    (o.instr op1 op2 op3).firstBadField = firstComplaint o.uses op1 op2 op3 := by
  have nibbles : (o.instr op1 op2 op3).nibbles = (op1, op2, op3) := by
    rw [Instr.nibbles, encode_instr, fieldsOf_nibbles4]
  have unfolded : (o.instr op1 op2 op3).firstBadField =
      firstComplaint o.uses (o.instr op1 op2 op3).nibbles.1 (o.instr op1 op2 op3).nibbles.2.1
        (o.instr op1 op2 op3).nibbles.2.2 := by
    cases o with
    | jump => exact absurd rfl noParity
    | _ => rfl
  rw [unfolded, nibbles]

theorem raised_checkRegZeroZero (op1 op2 op3 : Nibble) :
    raised (checkRegZeroZero op1 op2 op3) = firstComplaint (.register, .zero, .zero) op1 op2 op3 := by
  have first : raised (checkRegZeroZero op1 op2 op3) = _ :=
    raised_bind fun _ => raised_bind fun _ => raised_bind fun _ => rfl
  rw [first, raised_checkReg, raised_checkZero, raised_checkZero, Option.or_none, firstComplaint]

theorem raised_checkRegRegZero (op1 op2 op3 : Nibble) :
    raised (checkRegRegZero op1 op2 op3) = firstComplaint (.register, .register, .zero) op1 op2 op3 := by
  have first : raised (checkRegRegZero op1 op2 op3) = _ :=
    raised_bind fun _ => raised_bind fun _ => raised_bind fun _ => rfl
  rw [first, raised_checkReg, raised_checkReg, raised_checkZero, Option.or_none, firstComplaint]

theorem raised_checkRegRegReg (op1 op2 op3 : Nibble) :
    raised (checkRegRegReg op1 op2 op3) = firstComplaint (.register, .register, .register) op1 op2 op3 := by
  have first : raised (checkRegRegReg op1 op2 op3) = _ :=
    raised_bind fun _ => raised_bind fun _ => raised_bind fun _ => rfl
  rw [first, raised_checkReg, raised_checkReg, raised_checkReg, Option.or_none, firstComplaint]

/-- The three must-be-zero checks of SWITCH_MEMORY (R152). -/
theorem raised_checkZeros (op1 op2 op3 : Nibble) :
    raised (do checkZero .op1 op1; checkZero .op2 op2; checkZero .op3 op3) =
      firstComplaint (.zero, .zero, .zero) op1 op2 op3 := by
  have first : raised (do checkZero .op1 op1; checkZero .op2 op2; checkZero .op3 op3) = _ :=
    raised_bind fun _ => raised_bind fun _ => rfl
  rw [first, raised_checkZero, raised_checkZero, raised_checkZero, firstComplaint]

/-- Every handler begins with its field checks in the order op1, op2, op3, and only then does anything else (R211 (a)). -/
theorem exec_checks_first (i : Instr) (s : State) :
    ∃ (α : Type) (checks : Except Reason α) (rest : α → Except Reason (State × Word)),
      exec i s = conclude s (checks >>= rest) ∧ raised checks = i.firstBadField := by
  obtain ⟨o, op1, op2, op3, rfl⟩ := i.exists_instr
  by_cases parity : o = .jump
  · subst parity
    exact ⟨_, _, _, rfl, raised_checkEven _⟩
  · rw [firstBadField_instr parity]
    cases o with
    | jump => exact absurd rfl parity
    | store | draw => exact ⟨_, checkReg .op1 op1, _, rfl, (raised_checkReg .op1 op1).trans (Option.or_none).symm⟩
    | add | sub => exact ⟨_, _, _, rfl, raised_checkRegRegReg op1 op2 op3⟩
    | read | write | readKeyboard | readT | convertToBase10 =>
      exact ⟨_, _, _, rfl, raised_checkRegZeroZero op1 op2 op3⟩
    | skipEqual | skipNotEqual | convertByteToAscii => exact ⟨_, _, _, rfl, raised_checkRegRegZero op1 op2 op3⟩
    | switchMemory =>
      refine ⟨_, _, fun _ => .ok (s.toggleSelect, s.nextPc), ?_, raised_checkZeros op1 op2 op3⟩
      simp only [bind_assoc]
      rfl
    | setA => exact ⟨Unit, .ok (), fun _ => .ok (s.setAddr ((op1 ++ op2 ++ op3).setWidth 16), s.nextPc), rfl, rfl⟩
    | setT => exact ⟨_, _, _, rfl, raised_checkZero .op3 op3⟩

/-- Settles O7: the field checks come first, and the first that fails ends the handler. -/
theorem firstBadFieldGivesTheReason : Obligations.FirstBadFieldGivesTheReason := by
  intro i s q bad
  obtain ⟨_, checks, rest, he, hr⟩ := exec_checks_first i s
  rw [he]
  exact conclude_bind_of_raised s (hr.trans bad)

/-! ### Invalid instructions -/

/-- A complaint about a field is a FormatError (R202). -/
theorem complaint_category {u : FieldUse} {f : Field} {n : Nibble} {q : Reason} (h : u.complaint f n = some q) :
    q.category = .formatError := by
  cases u with
  | register | zero =>
    simp only [FieldUse.complaint] at h
    split at h <;> cases h
    rfl
  | literal | free => cases h

theorem firstComplaint_category {uses : FieldUse × FieldUse × FieldUse} {op1 op2 op3 : Nibble} {q : Reason}
    (h : firstComplaint uses op1 op2 op3 = some q) : q.category = .formatError := by
  simp only [firstComplaint, Option.or_eq_some_iff] at h
  obtain h1 | ⟨-, h2 | ⟨-, h3⟩⟩ := h
  · exact complaint_category h1
  · exact complaint_category h2
  · exact complaint_category h3

/-- The first bad field's reason is a FormatError (R202). -/
theorem firstBadField_category {i : Instr} {q : Reason} (h : i.firstBadField = some q) : q.category = .formatError := by
  obtain ⟨o, op1, op2, op3, rfl⟩ := i.exists_instr
  by_cases parity : o = .jump
  · subst parity
    obtain ⟨-, rfl⟩ := checkEven_eq_error.1 (eq_error_of_raised ((raised_checkEven _).trans h))
    rfl
  · rw [firstBadField_instr parity] at h
    exact firstComplaint_category h

/-- A field without a complaint is valid, but for the coordinates, which are checked later. -/
theorem valid_of_no_complaint {u : FieldUse} {f : Field} {n : Nibble} (early : u ≠ .literal)
    (h : u.complaint f n = none) : u.valid n = true := by
  cases u with
  | register => simpa [FieldUse.complaint, FieldUse.valid] using h
  | zero => simpa [FieldUse.complaint, FieldUse.valid] using h
  | literal => exact absurd rfl early
  | free => rfl

theorem wellFormed_instr {o : Opcode} (noParity : o ≠ .jump) (op1 op2 op3 : Nibble) :
    (o.instr op1 op2 op3).wellFormed = o.fieldsValid op1 op2 op3 := by
  cases o with
  | jump => exact absurd rfl noParity
  | store =>
    simp [Opcode.instr, instrOf, Opcode.ofNibble_code, Instr.wellFormed, Opcode.fieldsValid, Opcode.uses, FieldUse.valid]
  | _ => rfl

theorem firstBadField_jump_eq_none {target : Addr12} :
    (Instr.jump target).firstBadField = none ↔ target.toNat % 2 = 0 := by
  simp [Instr.firstBadField]

/-- Without a bad field every instruction is valid but DRAW, whose coordinates are checked later (R211). -/
theorem wellFormed_of_no_bad_field {i : Instr} (notDraw : i.opcode ≠ .draw) (h : i.firstBadField = none) :
    i.wellFormed = true := by
  obtain ⟨o, op1, op2, op3, rfl⟩ := i.exists_instr
  rw [opcode_instr] at notDraw
  by_cases parity : o = .jump
  · subst parity
    exact beq_iff_eq.2 (firstBadField_jump_eq_none.1 h)
  · rw [firstBadField_instr parity, firstComplaint, Option.or_eq_none_iff, Option.or_eq_none_iff] at h
    obtain ⟨h1, h2, h3⟩ := h
    have early : o.uses.1 ≠ .literal ∧ o.uses.2.1 ≠ .literal ∧ o.uses.2.2 ≠ .literal := by
      revert notDraw; cases o <;> decide
    obtain ⟨early1, early2, early3⟩ := early
    rw [wellFormed_instr parity, Opcode.fieldsValid_eq_true]
    exact ⟨valid_of_no_complaint early1 h1, valid_of_no_complaint early2 h2, valid_of_no_complaint early3 h3⟩

/-- DRAW goes on only when its register and both coordinates are valid; every reason it raises is a FormatError (R179). -/
theorem exec_draw_cases {op1 op2 op3 : Nibble} {s t : State} (h : exec (.draw op1 op2 op3) s = .next t) :
    (Instr.draw op1 op2 op3).wellFormed = true ∨ ∃ q : Reason, q.category = .formatError ∧ t = s.terminate q := by
  rcases conclude_cases h with ⟨w, p, passed, -⟩ | ⟨q, failed, rfl⟩
  · simp only [except_bind_eq_ok, checkReg_eq_ok, checkRow, checkCol, require_eq_ok, decide_eq_true_eq] at passed
    obtain ⟨r, rfl, _, -, _, row, _, col, -⟩ := passed
    have register : r.val ≤ 7 := Nat.le_of_lt_succ r.isLt
    simp [Instr.wellFormed, Opcode.fieldsValid, Opcode.uses, FieldUse.valid, nibOf_toNat, register, row, col]
  · simp only [except_bind_eq_error, checkReg_eq_error, require_eq_error, checkRow_eq_error, checkCol_eq_error] at failed
    refine .inr ⟨q, ?_, rfl⟩
    obtain ⟨-, rfl⟩ | ⟨_, -, ⟨-, rfl⟩ | ⟨_, -, ⟨-, rfl⟩ | ⟨_, -, ⟨-, rfl⟩ | ⟨_, -, ends⟩⟩⟩⟩ := failed
    · rfl
    · rfl
    · rfl
    · rfl
    · cases ends

/-- Settles O6: a bad field ends the handler, and DRAW, the only one with later checks, raises FormatErrors alone. -/
theorem invalidInstructionsAreFatalFormatErrors : Obligations.InvalidInstructionsAreFatalFormatErrors := by
  intro i s invalid
  cases bad : i.firstBadField with
  | some q => exact ⟨q, firstBadField_category bad, firstBadFieldGivesTheReason i s q bad⟩
  | none =>
    have draw : i.opcode = .draw := by
      by_contra notDraw
      simp [wellFormed_of_no_bad_field notDraw bad] at invalid
    obtain ⟨op1, op2, op3, rfl⟩ := Instr.eq_instr_of_opcode draw
    obtain ⟨t, ht⟩ := exec_next (Opcode.draw.instr op1 op2 op3) s
    obtain valid | ⟨q, category, rfl⟩ := exec_draw_cases ht
    · exact absurd (valid.symm.trans invalid) (by decide)
    · exact ⟨q, category, ht⟩

end Sys2Proof.Machine
end

section
/-! PROOFS. The timer: what a step can leave in T (R176), and what READ_T gives after ticks (R177, R215). -/

namespace Sys2Proof.Machine

theorem byteOperand_toNat (op2 op3 : Nibble) : (byteOperand op2 op3).toNat = op2.toNat * 16 + op3.toNat := by
  rw [byteOperand, BitVec.toNat_append, ← Nat.shiftLeft_add_eq_or_of_lt op3.isLt, Nat.shiftLeft_eq]

/-- An instruction that changes T sets it to a byte whose low nibble is 0 (R176). -/
theorem exec_changes_t {i : Instr} {s t : State} (h : exec i s = .next t) (changed : t.t ≠ s.t) :
    ∃ op2 : Nibble, t.t = byteOperand op2 0 := by
  obtain ⟨-, -, timer, -⟩ := eachStateChangesOnlyByItsWriters i s t h
  obtain ⟨op1, op2, op3, rfl⟩ := Instr.eq_instr_of_opcode (timer changed)
  rcases conclude_cases h with ⟨w, p, passed, rfl⟩ | ⟨q, -, rfl⟩
  · simp only [except_bind_eq_ok, checkZero_eq_ok] at passed
    obtain ⟨_, rfl, written⟩ := passed
    cases written
    exact ⟨op2, rfl⟩
  · exact absurd rfl changed

/-- A step that changes T leaves a multiple of 16 in it. -/
theorem step_changes_t {s t : State} (h : step s = .next t) (changed : t.t ≠ s.t) : t.t.toNat % 16 = 0 := by
  rcases step_next_cases h with rfl | ⟨q, rfl⟩ | ⟨w, -, he⟩
  · exact absurd rfl changed
  · exact absurd rfl changed
  · obtain ⟨op2, set⟩ := exec_changes_t he changed
    rw [set, byteOperand_toNat]
    exact Nat.mul_add_mod' ..

/-- A tick lowers T by 1, and leaves 0 as it is (R215). -/
theorem State.tick_t_toNat (s : State) : s.tick.t.toNat = s.t.toNat - 1 := by
  rw [State.tick_t]
  split <;> bv_omega

/-- `k` ticks lower T by `k`, down to 0 (R215). -/
theorem tick_iterate_t_toNat (k : Nat) (s : State) : (State.tick^[k] s).t.toNat = s.t.toNat - k := by
  induction k generalizing s with
  | zero => rfl
  | succ k ih => rw [Function.iterate_succ_apply, ih, State.tick_t_toNat, Nat.sub_sub, Nat.add_comm 1 k]

/-- READ_T puts T into its register (R177). -/
theorem exec_readT_reads_t (d : RegIx) (s : State) :
    ∃ u, exec (.readT (nibOf d) 0 0) s = .next u ∧ u.x[d] = s.t :=
  ⟨_, execReadT_valid d s, by simp⟩

/-- Settles O31: only SET_T changes T in a step, and ticks count it down until READ_T reads it. -/
theorem timerIsSetToMultiplesOf16AndCountsDown : Obligations.TimerIsSetToMultiplesOf16AndCountsDown := by
  refine ⟨fun _ _ _ _ _ => rfl, fun _ _ => step_changes_t, fun op1 op2 d k s t h => ?_⟩
  obtain rfl := Host.Outcome.next.inj ((execSetT_valid op1 op2 s).symm.trans h)
  obtain ⟨u, hu, read⟩ := exec_readT_reads_t d (State.tick^[k] ((s.setTimer (byteOperand op2 0)).commit s.nextPc))
  refine ⟨u, hu, ?_⟩
  rw [read, tick_iterate_t_toNat, State.commit_t, State.setTimer_t, byteOperand_toNat]
  rfl

end Sys2Proof.Machine
end

section
/-! PROOFS. The assembly language (R102, R103): assembly and disassembly are inverse. -/

namespace Sys2Proof.Machine

/-- The instruction with 0 in the nibble SET_T ignores, as the assembler writes it (R103). -/
def withIgnoredZero : Instr → Instr
  | .setT _ op2 op3 => .setT 0 op2 op3
  | i => i

theorem withIgnoredZero_of_ne {i : Instr} (h : i.opcode ≠ .setT) : withIgnoredZero i = i := by
  cases i with
  | setT op1 op2 op3 => exact absurd rfl h
  | _ => rfl

@[simp] theorem wellFormed_withIgnoredZero (i : Instr) : (withIgnoredZero i).wellFormed = i.wellFormed := by
  cases i <;> rfl

/-- The word of SET_T with its ignored nibble, bits 11:8, cleared. -/
theorem encode_withIgnoredZero {i : Instr} (h : i.opcode = .setT) :
    encode (withIgnoredZero i) = encode i &&& 0xF0FF := by
  obtain ⟨op1, op2, op3, rfl⟩ := Instr.eq_instr_of_opcode h
  have kept (n : Nibble) : n &&& 0xF = n := BitVec.and_allOnes
  have cleared (n : Nibble) : n &&& 0 = 0 := BitVec.and_zero
  calc encode (withIgnoredZero (Opcode.setT.instr op1 op2 op3))
      = nibbles4 Opcode.setT.code 0 op2 op3 := encode_instr .setT 0 op2 op3
    _ = nibbles4 Opcode.setT.code op1 op2 op3 &&& nibbles4 0xF 0 0xF 0xF := by
      rw [nibbles4_and, kept, kept, kept, cleared]
    _ = encode (Opcode.setT.instr op1 op2 op3) &&& 0xF0FF := by rw [encode_instr]; rfl

/-! Every operand fits its field (R102). -/

@[simp] theorem nibble_toNat_lt (n : Nibble) : n.toNat < 16 := n.isLt
@[simp] theorem byte_toNat_lt (v : Byte) : v.toNat < 256 := v.isLt
@[simp] theorem addr12_toNat_lt (v : Addr12) : v.toNat < 4096 := v.isLt

/-- The operands written for a valid instruction assemble to it again, with 0 in the nibble SET_T ignores: its
must-be-zero fields, which are not written, are 0. -/
theorem assembleInstr_operandsOf {i : Instr} (valid : i.wellFormed = true) :
    assembleInstr i.opcode (operandsOf i) = some (withIgnoredZero i) := by
  cases i with
  | store _ _ | jump _ | setA _ | add _ _ _ | sub _ _ _ | draw _ _ _ =>
    simp [assembleInstr, operandsOf, Instr.opcode, withIgnoredZero]
  | read op1 op2 op3 | write op1 op2 op3 | readKeyboard op1 op2 op3 | readT op1 op2 op3
  | convertToBase10 op1 op2 op3 =>
    obtain ⟨-, zero2, zero3⟩ := Opcode.fieldsValid_eq_true.1 valid
    obtain rfl := FieldUse.zero_valid_iff.1 zero2
    obtain rfl := FieldUse.zero_valid_iff.1 zero3
    simp [assembleInstr, operandsOf, Instr.opcode, withIgnoredZero]
  | skipEqual op1 op2 op3 | skipNotEqual op1 op2 op3 | convertByteToAscii op1 op2 op3 =>
    obtain ⟨-, -, zero3⟩ := Opcode.fieldsValid_eq_true.1 valid
    obtain rfl := FieldUse.zero_valid_iff.1 zero3
    simp [assembleInstr, operandsOf, Instr.opcode, withIgnoredZero]
  | switchMemory op1 op2 op3 =>
    obtain ⟨zero1, zero2, zero3⟩ := Opcode.fieldsValid_eq_true.1 valid
    obtain rfl := FieldUse.zero_valid_iff.1 zero1
    obtain rfl := FieldUse.zero_valid_iff.1 zero2
    obtain rfl := FieldUse.zero_valid_iff.1 zero3
    rfl
  | setT op1 op2 op3 =>
    obtain ⟨-, -, zero3⟩ := Opcode.fieldsValid_eq_true.1 valid
    obtain rfl := FieldUse.zero_valid_iff.1 zero3
    have fits : op2.toNat * 16 < 256 := by have := op2.isLt; omega
    simp [assembleInstr, operandsOf, Instr.opcode, withIgnoredZero, fits]

/-- What assembles has the line's opcode and operands: each number fits its field, and is read back from it. -/
theorem assembleInstr_eq_some {o : Opcode} {operands : List AsmOperand} {i : Instr}
    (h : assembleInstr o operands = some i) : i.opcode = o ∧ operandsOf i = operands := by
  unfold assembleInstr at h
  split at h <;> simp only [Option.ite_none_right_eq_some, Option.some.injEq, reduceCtorEq] at h
  case h_8 => subst h; exact ⟨rfl, rfl⟩
  all_goals obtain ⟨fits, rfl⟩ := h
  case h_12 imm => exact ⟨rfl, by simp [operandsOf]; omega⟩
  all_goals exact ⟨rfl, by simp [operandsOf, Nat.mod_eq_of_lt, fits]⟩

/-- A valid word's line assembles. -/
theorem assemble_disassemble {w : Word} (valid : (decodeWord w).wellFormed = true) :
    assemble (disassemble w) = some (encode (withIgnoredZero (decodeWord w))) := by
  have line : disassemble w = .line (decodeWord w).opcode (operandsOf (decodeWord w)) := if_pos valid
  simp [line, assemble, assembleInstr_operandsOf valid, valid]

/-- A line that assembles gives a valid word, whose disassembly is the line. -/
theorem disassemble_of_assemble {o : Opcode} {operands : List AsmOperand} {w : Word}
    (h : assemble (.line o operands) = some w) :
    (decodeWord w).wellFormed = true ∧ disassemble w = .line o operands := by
  obtain ⟨i, hi, hw⟩ := Option.bind_eq_some_iff.1 h
  obtain ⟨valid, hw⟩ := Option.ite_none_right_eq_some.1 hw
  cases hw
  obtain ⟨rfl, rfl⟩ := assembleInstr_eq_some hi
  simp [disassemble, valid]

/-- Settles O56: a valid word's operands determine it but for the nibble SET_T ignores, and a line that assembles is what
its word's instruction writes. -/
theorem assemblyAndDisassemblyAreInverse : Obligations.AssemblyAndDisassemblyAreInverse := by
  refine ⟨fun w valid other => ?_, fun w valid setT => ?_, fun _ _ _ => disassemble_of_assemble, fun w invalid => ?_⟩
  · rw [assemble_disassemble valid, withIgnoredZero_of_ne other, encode_decodeWord]
  · rw [assemble_disassemble valid, encode_withIgnoredZero setT, encode_decodeWord]
  · simp [disassemble, invalid]

end Sys2Proof.Machine
end

section
/-! PROOFS. The step cycle (R120-R134): the handler an opcode selects, what an instruction leaves in RUN, ICOUNT and pc,
and what each stage of a running machine's step can end with. -/

namespace Sys2Proof.Machine

/-! ### The handler an opcode selects -/

/-- A word whose opcode field holds an opcode's code runs that opcode's instruction, with the word's fields. -/
theorem exec_decodeWord_of_opcode (o : Opcode) (s : State) {w : Word} (h : (fieldsOf w).opcode = o.code) :
    exec (decodeWord w) s = exec (instrOf { fieldsOf w with opcode := o.code }) s := by
  rw [← h]; rfl

/-- Settles O3: each of the sixteen values is one opcode's code, and `exec` has one handler for each opcode. -/
theorem dispatchIsOnTheOpcodeAlone : Obligations.DispatchIsOnTheOpcodeAlone := fun _ s =>
  ⟨exec_decodeWord_of_opcode .store s, exec_decodeWord_of_opcode .add s, exec_decodeWord_of_opcode .sub s,
    exec_decodeWord_of_opcode .read s, exec_decodeWord_of_opcode .write s, exec_decodeWord_of_opcode .jump s,
    exec_decodeWord_of_opcode .readKeyboard s, exec_decodeWord_of_opcode .switchMemory s,
    exec_decodeWord_of_opcode .skipEqual s, exec_decodeWord_of_opcode .skipNotEqual s,
    exec_decodeWord_of_opcode .setA s, exec_decodeWord_of_opcode .setT s, exec_decodeWord_of_opcode .readT s,
    exec_decodeWord_of_opcode .convertToBase10 s, exec_decodeWord_of_opcode .convertByteToAscii s,
    exec_decodeWord_of_opcode .draw s⟩

/-! ### The reasons a handler raises -/

/-- A check that raises only errors, never a successful end (R201). -/
def RaisesErrors {α : Type} (check : Except Reason α) : Prop := ∀ q, check = .error q → q.isError = true

theorem RaisesErrors.ok {α : Type} (a : α) : RaisesErrors (.ok a) := fun _ h => nomatch h

theorem RaisesErrors.bind {α β : Type} {check : Except Reason α} {rest : α → Except Reason β}
    (first : RaisesErrors check) (later : ∀ a, RaisesErrors (rest a)) : RaisesErrors (check >>= rest) := by
  intro q h
  obtain failed | ⟨a, -, failed⟩ := except_bind_eq_error.1 h
  · exact first q failed
  · exact later a q failed

theorem RaisesErrors.require {c : Bool} {q : Reason} (error : q.isError = true) : RaisesErrors (require c q) := by
  intro q' h
  obtain ⟨-, rfl⟩ := require_eq_error.1 h
  exact error

theorem RaisesErrors.checkReg (f : Field) (n : Nibble) : RaisesErrors (checkReg f n) := by
  intro q h
  obtain ⟨-, rfl⟩ := checkReg_eq_error.1 h
  rfl

theorem RaisesErrors.checkZero (f : Field) (n : Nibble) : RaisesErrors (checkZero f n) := .require rfl

theorem RaisesErrors.checkRegZeroZero (op1 op2 op3 : Nibble) : RaisesErrors (checkRegZeroZero op1 op2 op3) :=
  .bind (.checkReg _ _) fun _ => .bind (.checkZero _ _) fun _ => .bind (.checkZero _ _) fun _ => .ok _

theorem RaisesErrors.checkRegRegZero (op1 op2 op3 : Nibble) : RaisesErrors (checkRegRegZero op1 op2 op3) :=
  .bind (.checkReg _ _) fun _ => .bind (.checkReg _ _) fun _ => .bind (.checkZero _ _) fun _ => .ok _

theorem RaisesErrors.checkRegRegReg (op1 op2 op3 : Nibble) : RaisesErrors (checkRegRegReg op1 op2 op3) :=
  .bind (.checkReg _ _) fun _ => .bind (.checkReg _ _) fun _ => .bind (.checkReg _ _) fun _ => .ok _

theorem RaisesErrors.fetch (s : State) : RaisesErrors (fetch s) :=
  .bind (.require rfl) fun _ => .bind (.require rfl) fun _ => .ok _

/-- A handler's answer that raises an error, or goes on with RUN as it was. -/
inductive KeepsRun (s : State) : Except Reason (State × Word) → Prop
  | ok {w : State} (p : Word) (same : w.run = s.run) : KeepsRun s (.ok (w, p))
  | error {q : Reason} (error : q.isError = true) : KeepsRun s (.error q)

theorem KeepsRun.bind {α : Type} {s : State} {check : Except Reason α} {rest : α → Except Reason (State × Word)}
    (first : RaisesErrors check) (later : ∀ a, KeepsRun s (rest a)) : KeepsRun s (check >>= rest) := by
  cases check with
  | ok a => exact later a
  | error q => exact .error (first q rfl)

/-- Every handler raises errors only, and sets RUN in no other way (R131, R201). -/
theorem exec_keepsRun (i : Instr) (s : State) : ∃ answer, exec i s = conclude s answer ∧ KeepsRun s answer := by
  cases i with
  | store => exact ⟨_, rfl, .bind (.checkReg _ _) fun _ => .ok _ rfl⟩
  | add | sub => exact ⟨_, rfl, .bind (.checkRegRegReg _ _ _) fun _ => .ok _ rfl⟩
  | read | readT => exact ⟨_, rfl, .bind (.checkRegZeroZero _ _ _) fun _ => .ok _ rfl⟩
  | readKeyboard => exact ⟨_, rfl, .bind (.checkRegZeroZero _ _ _) fun _ => .ok _ s.keyTaken_run⟩
  | write =>
    refine ⟨_, rfl, .bind (.checkRegZeroZero _ _ _) fun _ => ?_⟩
    simp only [dataWrite, bind_assoc, pure_bind]
    exact .bind (.require rfl) fun _ => .bind (.require rfl) fun _ => .ok _ (State.dataStore_run _ _ _)
  | jump => exact ⟨_, rfl, .bind (.require rfl) fun _ => .ok _ rfl⟩
  | switchMemory =>
    exact ⟨_, rfl, .bind (.checkZero _ _) fun _ => .bind (.checkZero _ _) fun _ => .bind (.checkZero _ _) fun _ =>
      .ok _ rfl⟩
  | skipEqual | skipNotEqual => exact ⟨_, rfl, .bind (.checkRegRegZero _ _ _) fun _ => .ok _ rfl⟩
  | setA addr => exact ⟨.ok (s.setAddr (addr.setWidth 16), s.nextPc), rfl, .ok _ rfl⟩
  | setT => exact ⟨_, rfl, .bind (.checkZero _ _) fun _ => .ok _ rfl⟩
  | convertToBase10 =>
    exact ⟨_, rfl, .bind (.checkRegZeroZero _ _ _) fun _ => .bind (.require rfl) fun _ => .bind (.require rfl) fun _ =>
      .bind (.require rfl) fun _ => .bind (.require rfl) fun _ => .ok _ (by simp)⟩
  | convertByteToAscii =>
    exact ⟨_, rfl, .bind (.checkRegRegZero _ _ _) fun _ => .bind (.require rfl) fun _ => .ok _ rfl⟩
  | draw =>
    exact ⟨_, rfl, .bind (.checkReg _ _) fun _ => .bind (.require rfl) fun _ => .bind (.require rfl) fun _ =>
      .bind (.require rfl) fun _ => .ok _ rfl⟩

/-- An instruction that ends a running machine ends it with an error (R201). -/
theorem exec_reason_isError {i : Instr} {s t : State} {q : Reason} (running : s.run = .running)
    (h : exec i s = .next t) (ended : t.run = .terminated q) : q.isError = true := by
  obtain ⟨answer, handled, keeps⟩ := exec_keepsRun i s
  rw [handled] at h
  cases keeps with
  | ok p same =>
    cases h
    simp [same, running] at ended
  | error error =>
    cases h
    cases ended
    exact error

/-! ### The sequencer -/

/-- The pc an instruction goes on at: one of the sequencer's three values (R130). -/
inductive Sequenced (s : State) : Instr → Word → Prop
  | sequential {i : Instr} (notJump : i.opcode ≠ .jump) (notEqual : i.opcode ≠ .skipEqual)
      (notNotEqual : i.opcode ≠ .skipNotEqual) : Sequenced s i s.nextPc
  | jump (target : Addr12) : Sequenced s (.jump target) (jumpPc target)
  | skipEqual (a b : RegIx) (op3 : Nibble) :
      Sequenced s (.skipEqual (nibOf a) (nibOf b) op3) (s.skipIf (s.regsEqual a b))
  | skipNotEqual (a b : RegIx) (op3 : Nibble) :
      Sequenced s (.skipNotEqual (nibOf a) (nibOf b) op3) (s.skipIf (!s.regsEqual a b))

/-- An instruction of an opcode that is no control transfer goes on at pc + 2 (R130, R168). -/
theorem Sequenced.of_opcode {i : Instr} {o : Opcode} (s : State) (op : i.opcode = o)
    (plain : o ∉ [Opcode.jump, .skipEqual, .skipNotEqual]) : Sequenced s i s.nextPc := by
  simp only [List.mem_cons, List.not_mem_nil, or_false, not_or, ← op] at plain
  exact .sequential plain.1 plain.2.1 plain.2.2

/-- An instruction records a reason and nothing else, or leaves RUN, counts itself, and goes on where the sequencer
says (R130-R132). -/
theorem exec_sequences {i : Instr} {s t : State} (h : exec i s = .next t) :
    (∃ q, t = s.terminate q) ∨ (t.run = s.run ∧ t.icount = s.icount + 1 ∧ Sequenced s i t.pc) := by
  refine (exec_cases h).imp_right ?_
  rintro (⟨d, v, op, rfl⟩ | ⟨d, op, rfl⟩ | ⟨v, op, -, -, rfl⟩ | ⟨v1, v2, v3, op, -, -, rfl⟩ | ⟨op, rfl⟩ |
    ⟨addr, rfl, rfl⟩ | ⟨op2, op, rfl⟩ | ⟨k, v, op, -, rfl⟩ | ⟨target, rfl, -, rfl⟩ | ⟨a, b, ⟨op3, rfl⟩, rfl⟩ |
    ⟨a, b, ⟨op3, rfl⟩, rfl⟩)
  · exact ⟨rfl, rfl, .of_opcode s rfl (by revert op; cases i.opcode <;> decide)⟩
  · exact ⟨by simp, by simp, .of_opcode s op (by decide)⟩
  · exact ⟨by simp, by simp, .of_opcode s op (by decide)⟩
  · exact ⟨by simp, by simp, .of_opcode s op (by decide)⟩
  · exact ⟨rfl, rfl, .of_opcode s op (by decide)⟩
  · exact ⟨rfl, rfl, .of_opcode s rfl (by simp [Instr.opcode])⟩
  · exact ⟨rfl, rfl, .of_opcode s op (by decide)⟩
  · exact ⟨rfl, rfl, .of_opcode s op (by decide)⟩
  · exact ⟨rfl, rfl, .jump target⟩
  · exact ⟨rfl, rfl, .skipEqual a b op3⟩
  · exact ⟨rfl, rfl, .skipNotEqual a b op3⟩

theorem jumpPc_eq_ofNat (target : Addr12) : jumpPc target = BitVec.ofNat 16 target.toNat :=
  (BitVec.ofNat_toNat 16 target).symm

theorem State.skipIf_regsEqual (s : State) (a b : RegIx) :
    s.skipIf (s.regsEqual a b) = if s.x[a] = s.x[b] then s.pc + 4 else s.pc + 2 := by
  simp [State.skipIf, State.regsEqual, State.reg, State.skipPc, State.nextPc]

theorem State.skipIf_not_regsEqual (s : State) (a b : RegIx) :
    s.skipIf (!s.regsEqual a b) = if s.x[a] = s.x[b] then s.pc + 2 else s.pc + 4 := by
  simp [State.skipIf, State.regsEqual, State.reg, State.skipPc, State.nextPc]

/-! ### What a step of a running machine ends with -/

/-- Check A and check B end a run successfully (R122, R123). -/
theorem terminationCheck_error_not_isError {s : State} {q : Reason} (h : terminationCheck s = .error q) :
    q.isError = false := by
  obtain ⟨-, -, rfl⟩ | ⟨-, -, rfl⟩ := terminationCheck_eq_error.1 h <;> rfl

/-- The step of a running machine: check A or check B ends it; or, where neither applies, an error does; or the
instruction at pc completes (R120, R133). -/
theorem step_running_cases {s t : State} (running : s.run = .running) (h : step s = .next t) :
    (∃ q, terminationCheck s = .error q ∧ t = s.terminate q) ∨
    (terminationCheck s = .ok () ∧ ∃ q, q.isError = true ∧ t = s.terminate q) ∨
    (t.run = .running ∧ t.icount = s.icount + 1 ∧ terminationCheck s = .ok () ∧ ∃ w, fetch s = .ok w ∧
      exec (decodeWord w) s = .next t ∧ Sequenced s (decodeWord w) t.pc) := by
  rcases step_cases s with ⟨q, ended, -⟩ | ⟨-, q, failed | ⟨checked, failed⟩, hs⟩ | ⟨-, checked, w, fetched, hs⟩
  · simp [running] at ended
  · exact .inl ⟨q, failed, Host.Outcome.next.inj (h.symm.trans hs)⟩
  · exact .inr (.inl ⟨checked, q, RaisesErrors.fetch s q failed, Host.Outcome.next.inj (h.symm.trans hs)⟩)
  · rw [hs] at h
    obtain ⟨q, rfl⟩ | ⟨run, count, sequenced⟩ := exec_sequences h
    · exact .inr (.inl ⟨checked, q, exec_reason_isError running h rfl, rfl⟩)
    · exact .inr (.inr ⟨run.trans running, count, checked, w, fetched, h, sequenced⟩)

/-- The step of a running machine records one reason and nothing else, or completes the instruction (R131-R133). -/
theorem step_terminates_or_completes {s t : State} (running : s.run = .running) (h : step s = .next t) :
    (∃ q, t = s.terminate q) ∨ (t.run = .running ∧ t.icount = s.icount + 1) := by
  rcases step_running_cases running h with ⟨q, -, ended⟩ | ⟨-, q, -, ended⟩ | ⟨run, count, -⟩
  · exact .inl ⟨q, ended⟩
  · exact .inl ⟨q, ended⟩
  · exact .inr ⟨run, count⟩

/-- Settles O37: a terminated machine stays terminated, and a running one records a reason or completes. -/
theorem everyStepCompletesOrTerminates : Obligations.EveryStepCompletesOrTerminates := by
  intro s
  obtain ⟨t, ht⟩ := step_next s
  refine ⟨t, ht, ?_⟩
  cases hr : s.run with
  | terminated q =>
    obtain rfl := Host.Outcome.next.inj ((step_terminated hr).symm.trans ht)
    exact .inr ⟨q, hr⟩
  | running =>
    obtain ⟨q, rfl⟩ | ⟨run, count⟩ := step_terminates_or_completes hr ht
    · exact .inr ⟨q, rfl⟩
    · exact .inl ⟨rfl, run, count⟩

/-- Settles O38: a step that does not complete only records its reason. -/
theorem failingStepChangesOnlyRunAndRsn : Obligations.FailingStepChangesOnlyRunAndRsn := by
  intro s t q running h ended
  obtain ⟨q', rfl⟩ | ⟨run, -⟩ := step_terminates_or_completes running h
  · cases ended; rfl
  · simp [run] at ended

/-- Settles O39: a step that does not end the run completes the word at pc, and `Sequenced` names its next pc. -/
theorem successfulStepSequencesPcAndCounts : Obligations.SuccessfulStepSequencesPcAndCounts := by
  intro s t running h goesOn
  rcases step_running_cases running h with ⟨q, -, rfl⟩ | ⟨-, q, -, rfl⟩ | ⟨-, count, -, w, fetched, ran, sequenced⟩
  · cases goesOn
  · cases goesOn
  obtain ⟨-, -, rfl⟩ := fetch_eq_ok.1 fetched
  refine ⟨count, _, rfl, ran, ?_⟩
  generalize decodeWord _ = i at sequenced
  generalize t.pc = p at sequenced ⊢
  cases sequenced with
  | sequential notJump notEqual notNotEqual =>
    refine ⟨?_, ?_, ?_, fun _ _ _ => rfl⟩
    · rintro _ rfl; exact absurd rfl notJump
    · rintro _ _ _ rfl; exact absurd rfl notEqual
    · rintro _ _ _ rfl; exact absurd rfl notNotEqual
  | jump target =>
    refine ⟨?_, nofun, nofun, fun notJump => absurd rfl notJump⟩
    rintro _ ⟨⟩; exact jumpPc_eq_ofNat target
  | skipEqual a b op3 =>
    refine ⟨nofun, ?_, nofun, fun _ notEqual => absurd rfl notEqual⟩
    rintro _ _ _ ⟨⟩; exact ⟨a, b, rfl, rfl, s.skipIf_regsEqual a b⟩
  | skipNotEqual a b op3 =>
    refine ⟨nofun, nofun, ?_, fun _ _ notNotEqual => absurd rfl notNotEqual⟩
    rintro _ _ _ ⟨⟩; exact ⟨a, b, rfl, rfl, s.skipIf_not_regsEqual a b⟩

/-! ### How a run ends -/

@[simp] theorem State.endedWell_terminate (s : State) (q : Reason) : (s.terminate q).endedWell = !q.isError := rfl

theorem State.endedWell_of_running {s : State} (running : s.run = .running) : s.endedWell = false := by
  simp [State.endedWell, running]

/-- A run that has ended has ended well or in error, and not both (R134). -/
theorem State.endedInError_iff (s : State) : s.endedInError = true ↔ s.run ≠ .running ∧ s.endedWell = false := by
  unfold State.endedInError State.endedWell
  cases s.run <;> simp

/-- Where both checks pass neither halting condition holds (R122, R123). -/
theorem not_halts_of_terminationCheck_ok {s : State} (checked : terminationCheck s = .ok ()) :
    ¬ ((0 < s.icount ∧ s.pc = 0) ∨ s.plen ≤ s.pc.toNat) := by
  obtain ⟨notA, inside⟩ := terminationCheck_eq_ok.1 checked
  exact not_or.2 ⟨notA, Nat.not_le.2 inside⟩

/-- Where a check ends the run one of the halting conditions holds (R122, R123). -/
theorem halts_of_terminationCheck_error {s : State} {q : Reason} (failed : terminationCheck s = .error q) :
    (0 < s.icount ∧ s.pc = 0) ∨ s.plen ≤ s.pc.toNat := by
  obtain ⟨counted, zero, -⟩ | ⟨-, past, -⟩ := terminationCheck_eq_error.1 failed
  · exact .inl ⟨counted, zero⟩
  · exact .inr past

/-- Settles O40: the two checks give the only reasons that are no errors. -/
theorem runEndsWellExactlyAtTheTwoHalts : Obligations.RunEndsWellExactlyAtTheTwoHalts := by
  intro s t running h
  refine ⟨?_, t.endedInError_iff⟩
  rcases step_running_cases running h with ⟨q, failed, rfl⟩ | ⟨checked, q, error, rfl⟩ | ⟨run, -, checked, -⟩
  · exact iff_of_true (by simp [terminationCheck_error_not_isError failed]) (halts_of_terminationCheck_error failed)
  · exact iff_of_false (by simp [error]) (not_halts_of_terminationCheck_ok checked)
  · exact iff_of_false (by simp [State.endedWell_of_running run]) (not_halts_of_terminationCheck_ok checked)

/-! ### The stages one by one -/

/-- A running machine that passes both checks and fetches runs the handler of the word at pc (R120, R125). -/
theorem step_runs_word_at_pc {s : State} (running : s.run = .running) (notA : ¬ (0 < s.icount ∧ s.pc = 0))
    (inside : s.pc.toNat < s.plen) (even : s.pc.toNat % 2 = 0) (fits : s.pc.toNat + 1 < s.cfg.romSize) :
    step s = exec (decodeWord (wordOfBytes (Memory.read s.rom s.pc.toNat) (Memory.read s.rom (s.pc.toNat + 1)))) s :=
  step_runs running (terminationCheck_eq_ok.2 ⟨notA, inside⟩) (fetch_eq_ok.2 ⟨even, fits, rfl⟩)

/-- Settles O32: the two bytes at pc decode to the instruction of the fetched word. -/
theorem stepRunsTheDecodedInstruction : Obligations.StepRunsTheDecodedInstruction := by
  intro s i running notA inside even fits decoded
  cases decoded
  exact step_runs_word_at_pc running notA inside even fits

/-- A terminated machine stays as it is through any number of steps (R121). -/
theorem core_run_terminated {s : State} {q : Reason} (ended : s.run = .terminated q) (n : Nat) :
    Sys2Proof.core.run n s = .next s := by
  induction n with
  | zero => rfl
  | succ n ih => exact (core_run_succ n s s).2 ⟨s, step_terminated ended, ih⟩

/-- Settles O33: one step by R121, and any number of them by induction. -/
theorem terminatedMachineStaysAsItIs : Obligations.TerminatedMachineStaysAsItIs :=
  fun _ _ n ended => ⟨step_terminated ended, core_run_terminated ended n⟩

/-- Check A ends the step before check B, whatever PLEN is (R122, R123). -/
theorem step_checkA {s : State} (running : s.run = .running) (counted : 0 < s.icount) (zero : s.pc = 0) :
    step s = .next (s.terminate .haltPcZero) :=
  step_check_fails running (terminationCheck_eq_error.2 (.inl ⟨counted, zero, rfl⟩))

/-- HALT_PC_ZERO comes from check A alone (R122). -/
theorem icount_pos_of_haltPcZero {s t : State} (running : s.run = .running) (h : step s = .next t)
    (ended : t.run = .terminated .haltPcZero) : 0 < s.icount := by
  rcases step_running_cases running h with ⟨q, failed, rfl⟩ | ⟨-, q, error, rfl⟩ | ⟨run, -⟩
  · cases ended
    obtain ⟨counted, -⟩ | ⟨-, -, other⟩ := terminationCheck_eq_error.1 failed
    · exact counted
    · cases other
  · cases ended; cases error
  · simp [run] at ended

/-- Settles O34: check A is the first check, and the only source of its reason. -/
theorem checkAEndsTheRunAtPcZero : Obligations.CheckAEndsTheRunAtPcZero :=
  ⟨fun _ => step_checkA,
    fun _ _ running uncounted h ended => (icount_pos_of_haltPcZero running h ended).ne' uncounted, rfl, rfl⟩

/-- Settles O35: check B comes second, so check A's reason stands where both apply. -/
theorem checkBEndsTheRunPastTheProgram : Obligations.CheckBEndsTheRunPastTheProgram :=
  ⟨fun _ running notA past => step_check_fails running (terminationCheck_eq_error.2 (.inr ⟨notA, past, rfl⟩)),
    fun _ running counted zero _ => step_checkA running counted zero, fun _ => ⟨rfl, rfl⟩⟩

/-- The byte at the lower address is the word's high byte (R70). -/
theorem wordOfBytes_eq_ofNat (hi lo : Byte) : wordOfBytes hi lo = BitVec.ofNat 16 (hi.toNat * 256 + lo.toNat) := by
  apply BitVec.eq_of_toNat_eq
  have hiLt := hi.isLt
  have loLt := lo.isLt
  rw [wordOfBytes, BitVec.toNat_append, ← Nat.shiftLeft_add_eq_or_of_lt loLt, Nat.shiftLeft_eq, BitVec.toNat_ofNat]
  omega

/-- Settles O36: the fetch's two faults, and otherwise the word of the two bytes at pc. -/
theorem fetchReadsTheBigEndianWordOrFaults : Obligations.FetchReadsTheBigEndianWordOrFaults := by
  intro s running notA inside
  have checked : terminationCheck s = .ok () := terminationCheck_eq_ok.2 ⟨notA, inside⟩
  refine ⟨fun odd => ?_, fun even past => ?_, fun even fits => ?_⟩
  · exact step_fetch_fails running checked (fetch_eq_error.2 (.inl ⟨odd, rfl⟩))
  · exact step_fetch_fails running checked (fetch_eq_error.2 (.inr ⟨even, past, rfl⟩))
  · rw [← wordOfBytes_eq_ofNat]
    exact step_runs_word_at_pc running notA inside even fits

end Sys2Proof.Machine
end

section
/-! PROOFS. The register instructions (R140-R143): their words, what they write, and the register checks of ADD and
SUB. -/

namespace Sys2Proof.Machine

/-! ### The three register checks of ADD and SUB, in order (R141, R142, R211 (a)) -/

theorem checkRegRegReg_bad_op1 {op1 : Nibble} (op2 op3 : Nibble) (bad : 7 < op1.toNat) :
    checkRegRegReg op1 op2 op3 = .error (.fmtBadRegister .op1 op1) := by
  rw [checkRegRegReg, checkReg_bad .op1 bad, except_error_bind]

theorem checkRegRegReg_bad_op2 (a : RegIx) {op2 : Nibble} (op3 : Nibble) (bad : 7 < op2.toNat) :
    checkRegRegReg (nibOf a) op2 op3 = .error (.fmtBadRegister .op2 op2) := by
  rw [checkRegRegReg, checkReg_nibOf, except_ok_bind, checkReg_bad .op2 bad, except_error_bind]

theorem checkRegRegReg_bad_op3 (a b : RegIx) {op3 : Nibble} (bad : 7 < op3.toNat) :
    checkRegRegReg (nibOf a) (nibOf b) op3 = .error (.fmtBadRegister .op3 op3) := by
  rw [checkRegRegReg, checkReg_nibOf, except_ok_bind, checkReg_nibOf, except_ok_bind, checkReg_bad .op3 bad,
    except_error_bind]

/-- A handler whose first checks fail ends with their reason, and writes nothing else (R131). -/
theorem conclude_bind_of_error {α : Type} {check : Except Reason α} {rest : α → Except Reason (State × Word)}
    {q : Reason} (s : State) (failed : check = .error q) : conclude s (check >>= rest) = .next (s.terminate q) :=
  conclude_bind_of_raised s (congrArg raised failed)

/-- A handler that begins with three register checks ends with the reason of the first that fails. -/
theorem conclude_checkRegRegReg_bad (rest : State → RegIx × RegIx × RegIx → Except Reason (State × Word)) :
    (∀ (op1 op2 op3 : Nibble) (s : State), 7 < op1.toNat →
      conclude s (checkRegRegReg op1 op2 op3 >>= rest s) = .next (s.terminate (.fmtBadRegister .op1 op1))) ∧
    (∀ (a : RegIx) (op2 op3 : Nibble) (s : State), 7 < op2.toNat →
      conclude s (checkRegRegReg (nibOf a) op2 op3 >>= rest s) = .next (s.terminate (.fmtBadRegister .op2 op2))) ∧
    (∀ (a b : RegIx) (op3 : Nibble) (s : State), 7 < op3.toNat →
      conclude s (checkRegRegReg (nibOf a) (nibOf b) op3 >>= rest s) = .next (s.terminate (.fmtBadRegister .op3 op3))) :=
  ⟨fun _ op2 op3 s bad => conclude_bind_of_error s (checkRegRegReg_bad_op1 op2 op3 bad),
    fun a _ op3 s bad => conclude_bind_of_error s (checkRegRegReg_bad_op2 a op3 bad),
    fun a b _ s bad => conclude_bind_of_error s (checkRegRegReg_bad_op3 a b bad)⟩

/-! ### Byte arithmetic, as numbers below 256 (R143) -/

theorem byte_add_eq_ofNat (u v : Byte) : u + v = BitVec.ofNat 8 ((u.toNat + v.toNat) % 256) :=
  BitVec.eq_of_toNat_eq (by simp)

theorem byte_sub_eq_ofNat (u v : Byte) : u - v = BitVec.ofNat 8 ((u.toNat + 256 - v.toNat) % 256) := by
  apply BitVec.eq_of_toNat_eq
  have vLt := v.isLt
  rw [BitVec.toNat_sub, BitVec.toNat_ofNat]
  omega

/-! ### STORE, ADD and SUB -/

/-- Settles O8: a register that `nibOf` names passes STORE's only check, and a field above 7 fails it. -/
theorem storeLoadsItsImmediate : Obligations.StoreLoadsItsImmediate :=
  ⟨fun op1 imm => decodeWord_encode (.store op1 imm), execStore_valid,
    fun _ _ s bad => conclude_bind_of_error s (checkReg_bad .op1 bad)⟩

/-- Settles O9: byte addition is addition modulo 256, and the first check that fails ends the handler. -/
theorem addIsModulo256 : Obligations.AddIsModulo256 := by
  refine ⟨fun op1 op2 op3 => decodeWord_encode (.add op1 op2 op3), fun a b d s => ?_,
    conclude_checkRegRegReg_bad _⟩
  rw [← byte_add_eq_ofNat]
  exact execAdd_valid a b d s

/-- Settles O10: byte subtraction is subtraction modulo 256, and the first check that fails ends the handler. -/
theorem subIsModulo256 : Obligations.SubIsModulo256 := by
  refine ⟨fun op1 op2 op3 => decodeWord_encode (.sub op1 op2 op3), fun a b d s => ?_,
    conclude_checkRegRegReg_bad _⟩
  rw [← byte_sub_eq_ofNat]
  exact execSub_valid a b d s

end Sys2Proof.Machine
end

section
/-! PROOFS. The memory instructions (R150-R155): their words, what they store, where they stop and with which reason,
and what they leave; and the frames of SWITCH_MEMORY, SET_A, SET_T and DRAW. -/

namespace Sys2Proof.Machine

/-! ### A register field, then two zeros, checked in order (R93, R211 (a)) -/

theorem checkRegZeroZero_bad_op1 {op1 : Nibble} (op2 op3 : Nibble) (bad : 7 < op1.toNat) :
    checkRegZeroZero op1 op2 op3 = .error (.fmtBadRegister .op1 op1) := by
  rw [checkRegZeroZero, checkReg_bad .op1 bad, except_error_bind]

theorem checkRegZeroZero_bad_op2 (r : RegIx) {op2 : Nibble} (op3 : Nibble) (bad : op2 ≠ 0) :
    checkRegZeroZero (nibOf r) op2 op3 = .error (.fmtNonzeroField .op2 op2) := by
  rw [checkRegZeroZero, checkReg_nibOf, except_ok_bind, checkZero_bad .op2 bad, except_error_bind]

theorem checkRegZeroZero_bad_op3 (r : RegIx) {op3 : Nibble} (bad : op3 ≠ 0) :
    checkRegZeroZero (nibOf r) 0 op3 = .error (.fmtNonzeroField .op3 op3) := by
  have passed : checkZero .op2 0 = .ok () := checkZero_zero .op2
  rw [checkRegZeroZero, checkReg_nibOf, except_ok_bind, passed, except_ok_bind, checkZero_bad .op3 bad,
    except_error_bind]

@[simp] theorem checkRegZeroZero_nibOf (r : RegIx) : checkRegZeroZero (nibOf r) 0 0 = .ok r :=
  checkRegZeroZero_eq_ok.2 ⟨rfl, rfl, rfl⟩

/-- A handler that begins with a register and two must-be-zero checks ends with the reason of the first that fails. -/
theorem conclude_checkRegZeroZero_bad (rest : State → RegIx → Except Reason (State × Word)) :
    (∀ (op1 op2 op3 : Nibble) (s : State), 7 < op1.toNat →
      conclude s (checkRegZeroZero op1 op2 op3 >>= rest s) = .next (s.terminate (.fmtBadRegister .op1 op1))) ∧
    (∀ (r : RegIx) (op2 op3 : Nibble) (s : State), op2 ≠ 0 →
      conclude s (checkRegZeroZero (nibOf r) op2 op3 >>= rest s) = .next (s.terminate (.fmtNonzeroField .op2 op2))) ∧
    (∀ (r : RegIx) (op3 : Nibble) (s : State), op3 ≠ 0 →
      conclude s (checkRegZeroZero (nibOf r) 0 op3 >>= rest s) = .next (s.terminate (.fmtNonzeroField .op3 op3))) :=
  ⟨fun _ op2 op3 s bad => conclude_bind_of_error s (checkRegZeroZero_bad_op1 op2 op3 bad),
    fun r _ op3 s bad => conclude_bind_of_error s (checkRegZeroZero_bad_op2 r op3 bad),
    fun r _ s bad => conclude_bind_of_error s (checkRegZeroZero_bad_op3 r bad)⟩

/-! ### The frame of the storing instructions (R151, R154, R155) -/

section Stores

variable {s t : State}

@[simp] theorem State.memOf_commit (s : State) (p : Word) (sp : Space) : (s.commit p).memOf sp = s.memOf sp := by
  cases sp <;> rfl

@[simp] theorem State.memOf_terminate (s : State) (q : Reason) (sp : Space) : (s.terminate q).memOf sp = s.memOf sp := by
  cases sp <;> rfl

/-- The memories after a data write: the selected one has the byte stored, the other is as before (R69). -/
theorem State.memOf_dataStore (s : State) (a : Nat) (v : Byte) (sp : Space) :
    (s.dataStore a v).memOf sp = if sp = s.selected then Memory.write (s.memOf sp) a v else s.memOf sp := by
  unfold State.dataStore
  cases s.selected <;> cases sp <;> rfl

/-- A data write keeps both memories in canonical form (log 14). -/
theorem State.wf_dataStore (wf : ∀ sp, Memory.wf (s.memOf sp) = true) (a : Nat) (v : Byte) (sp : Space) :
    Memory.wf ((s.dataStore a v).memOf sp) = true := by
  rw [State.memOf_dataStore]
  split
  · exact Memory.wf_write a v (wf sp)
  · exact wf sp

/-- A data write leaves every byte but the one at its address in the selected memory (R69). -/
theorem State.read_dataStore_of_ne (wf : ∀ sp, Memory.wf (s.memOf sp) = true) {a b : Nat} {sp : Space}
    (other : sp = s.selected → b ≠ a) (v : Byte) :
    Memory.read ((s.dataStore a v).memOf sp) b = Memory.read (s.memOf sp) b := by
  rw [State.memOf_dataStore]
  split
  next selected => rw [Memory.read_write a b v (wf sp), if_neg (other selected)]
  next => rfl

/-- WRITE records a reason, or stores one byte at A where the arbiter lets it. -/
theorem exec_write_cases {op1 op2 op3 : Nibble} (h : exec (.write op1 op2 op3) s = .next t) :
    (∃ q, t = s.terminate q) ∨ (s.m = true → s.cfg.romWritable = true) ∧ s.a.toNat < s.sizeOf s.selected ∧
      ∃ v, t = (s.dataStore s.a.toNat v).commit s.nextPc := by
  simpa [Instr.opcode] using exec_cases h

/-- CONVERT_TO_BASE_10 records a reason, or stores three bytes from A on where the arbiter lets it. -/
theorem exec_convertToBase10_cases {op1 op2 op3 : Nibble} (h : exec (.convertToBase10 op1 op2 op3) s = .next t) :
    (∃ q, t = s.terminate q) ∨ (s.m = true → s.cfg.romWritable = true) ∧ s.a.toNat + 2 < s.sizeOf s.selected ∧
      ∃ v1 v2 v3, t = (((s.dataStore s.a.toNat v1).dataStore (s.a.toNat + 1) v2).dataStore (s.a.toNat + 2) v3).commit
        s.nextPc := by
  simpa [Instr.opcode] using exec_cases h

end Stores

/-- Settles O25: the next state is a termination, or one or three data writes, each of which leaves every other byte. -/
theorem storingInstructionsFrame : Obligations.StoringInstructionsFrame := by
  rintro i stored s t storing ramWf romWf h
  have wf : ∀ sp, Memory.wf (s.memOf sp) = true := fun | .ram => ramWf | .rom => romWf
  obtain ⟨⟨op1, op2, op3, rfl⟩, rfl⟩ | ⟨⟨op1, op2, op3, rfl⟩, rfl⟩ := storing
  · obtain ⟨q, rfl⟩ | ⟨-, -, v, rfl⟩ := exec_write_cases h
    · simp
    · have bytes (sp : Space) (b : Nat) (away : sp = s.selected → ∀ k < 1, b ≠ s.dataAddr k) :
          Memory.read ((s.dataStore s.a.toNat v).memOf sp) b = Memory.read (s.memOf sp) b :=
        State.read_dataStore_of_ne wf (fun sel => away sel 0 (by decide)) v
      simpa using bytes
  · obtain ⟨q, rfl⟩ | ⟨-, -, v1, v2, v3, rfl⟩ := exec_convertToBase10_cases h
    · simp
    · have wf1 := State.wf_dataStore wf s.a.toNat v1
      have wf2 := State.wf_dataStore wf1 (s.a.toNat + 1) v2
      have bytes (sp : Space) (b : Nat) (away : sp = s.selected → ∀ k < 3, b ≠ s.dataAddr k) :
          Memory.read ((((s.dataStore s.a.toNat v1).dataStore (s.a.toNat + 1) v2).dataStore
            (s.a.toNat + 2) v3).memOf sp) b = Memory.read (s.memOf sp) b := by
        rw [State.read_dataStore_of_ne wf2, State.read_dataStore_of_ne wf1, State.read_dataStore_of_ne wf]
        · exact fun sel => away sel 0 (by decide)
        · rw [State.dataStore_selected]
          exact fun sel => away sel 1 (by decide)
        · rw [State.dataStore_selected, State.dataStore_selected]
          exact fun sel => away sel 2 (by decide)
      simpa using bytes

/-! ### The frames of SWITCH_MEMORY, SET_A, SET_T and DRAW (R152, R153, R176, R179) -/

section ControlRegisters

variable {s t : State}

theorem exec_switchMemory_cases {op1 op2 op3 : Nibble} (h : exec (.switchMemory op1 op2 op3) s = .next t) :
    (∃ q, t = s.terminate q) ∨ t = s.toggleSelect.commit s.nextPc := by
  simpa [Instr.opcode] using exec_cases h

theorem exec_setA_cases {addr : Addr12} (h : exec (.setA addr) s = .next t) :
    (∃ q, t = s.terminate q) ∨ t = (s.setAddr (addr.setWidth 16)).commit s.nextPc := by
  simpa [Instr.opcode] using exec_cases h

theorem exec_setT_cases {op1 op2 op3 : Nibble} (h : exec (.setT op1 op2 op3) s = .next t) :
    (∃ q, t = s.terminate q) ∨ ∃ v, t = (s.setTimer v).commit s.nextPc := by
  have outcome : (∃ q, t = s.terminate q) ∨ ∃ op2, t = (s.setTimer (byteOperand op2 0)).commit s.nextPc := by
    simpa [Instr.opcode] using exec_cases h
  exact outcome.imp_right fun ⟨_, written⟩ => ⟨_, written⟩

/-- DRAW records a reason, or writes the one cell that its valid row and column name. -/
theorem exec_draw_writes {op1 op2 op3 : Nibble} (h : exec (.draw op1 op2 op3) s = .next t) :
    (∃ q, t = s.terminate q) ∨ ∃ row col v, op2 = nibOf row ∧ op3 = nibOf col ∧
      t = (s.displayWrite (cellIndex row col) v).commit s.nextPc := by
  obtain ⟨w, p, passed, rfl⟩ | ⟨q, -, rfl⟩ := conclude_cases h
  · simp only [except_bind_eq_ok, checkRow, checkCol, require_eq_ok, decide_eq_true_eq] at passed
    obtain ⟨r, -, _, -, _, rowOk, _, colOk, written⟩ := passed
    obtain ⟨row, rfl⟩ := exists_nibOf rowOk
    obtain ⟨col, rfl⟩ := exists_nibOf colOk
    cases written
    exact .inr ⟨row, col, _, rfl, rfl, by rw [cellOf_nibOf]⟩
  · exact .inl ⟨q, rfl⟩

end ControlRegisters

/-- A display write leaves every other cell. -/
theorem State.displayWrite_disp_of_ne (s : State) {k j : Fin 64} (ne : k ≠ j) (v : Byte) :
    (s.displayWrite j v).disp[k] = s.disp[k] :=
  Vector.getElem_set_ne j.isLt k.isLt fun same => ne (Fin.ext same.symm)

/-- Settles O27: each of the four ends in a termination or in one write of its own field. -/
theorem controlRegisterAndDisplayFrame : Obligations.ControlRegisterAndDisplayFrame := by
  intro i s t h
  refine ⟨fun op => ?switchMemory, fun op => ?setA, fun op => ?setT, ?draw⟩
  case switchMemory =>
    obtain ⟨op1, op2, op3, rfl⟩ := Instr.eq_instr_of_opcode op
    obtain ⟨q, rfl⟩ | rfl := exec_switchMemory_cases h <;> rfl
  case setA =>
    obtain ⟨op1, op2, op3, rfl⟩ := Instr.eq_instr_of_opcode op
    obtain ⟨q, rfl⟩ | rfl := exec_setA_cases h <;> rfl
  case setT =>
    obtain ⟨op1, op2, op3, rfl⟩ := Instr.eq_instr_of_opcode op
    obtain ⟨q, rfl⟩ | ⟨v, rfl⟩ := exec_setT_cases h <;> rfl
  case draw =>
    rintro op1 op2 op3 rfl
    obtain ⟨q, rfl⟩ | ⟨row, col, v, rfl, rfl, rfl⟩ := exec_draw_writes h
    · exact ⟨rfl, fun _ _ => rfl⟩
    · refine ⟨rfl, fun k away => State.displayWrite_disp_of_ne s (fun same => away ?_) v⟩
      rw [same, nibOf_toNat, nibOf_toNat, cellIndex]

/-! ### READ (R150) -/

/-- What a data read gives: the byte of the selected memory, or 0 beyond its extent (R66, R68). -/
theorem State.dataRead_eq (s : State) (a : Nat) : s.dataRead a =
    if s.m then (if a < s.plen then Memory.read s.rom a else 0)
    else (if a < s.cfg.ramSize then Memory.read s.ram a else 0) := by
  cases select : s.m with
  | false => rw [State.dataRead, State.selected_ram select]; rfl
  | true => rw [State.dataRead, State.selected_rom select]; rfl

/-- Settles O11: a register that `nibOf` names and two zeros pass READ's checks, and its data read never fails. -/
theorem readLoadsTheSelectedByte : Obligations.ReadLoadsTheSelectedByte := by
  refine ⟨fun op1 op2 op3 => decodeWord_encode (.read op1 op2 op3), fun d s => ?_, conclude_checkRegZeroZero_bad _⟩
  rw [← State.dataRead_eq]
  exact execRead_valid d s

/-! ### WRITE (R151) -/

/-- RAM is always writable (R69). -/
theorem writable_of_ram {s : State} (ram : s.m = false) : s.m = true → s.cfg.romWritable = true :=
  fun rom => nomatch ram.symm.trans rom

/-- A WRITE into RAM stores x[r] at A in RAM, and goes on. -/
theorem exec_write_ram (r : RegIx) {s : State} (ram : s.m = false) (inside : s.a.toNat < s.cfg.ramSize) :
    exec (.write (nibOf r) 0 0) s = .next ((s.poke .ram s.a.toNat s.x[r]).commit s.nextPc) := by
  have fits : s.a.toNat < s.sizeOf s.selected := by rwa [State.selected_ram ram]
  rw [← State.dataStore_to_ram ram]
  exact execWrite_valid r s (writable_of_ram ram) fits

/-- A WRITE whose data write fails ends with that reason, and stores nothing. -/
theorem exec_write_of_error (r : RegIx) {s : State} {q : Reason} (failed : dataWrite s s.a.toNat s.x[r] = .error q) :
    exec (.write (nibOf r) 0 0) s = .next (s.terminate q) := by
  show conclude s (checkRegZeroZero (nibOf r) 0 0 >>= _) = _
  rw [checkRegZeroZero_nibOf, except_ok_bind]
  exact conclude_bind_of_error s failed

/-- A data write to read-only ROM fails, whatever the address is (R69). -/
theorem dataWrite_readOnly {s : State} (a : Nat) (v : Byte) (rom : s.m = true) (readOnly : s.cfg.romWritable = false) :
    dataWrite s a v = .error (.resourceRomReadOnly a) := by
  rw [dataWrite, checkWritable_bad a rom readOnly, except_error_bind]

/-- A data write past a writable memory fails (R69). -/
theorem dataWrite_outside {s : State} {a : Nat} (v : Byte) (writable : s.m = true → s.cfg.romWritable = true)
    (outside : s.sizeOf s.selected ≤ a) : dataWrite s a v = .error (.boundsData s.selected a) := by
  have passed : checkWritable s a = .ok () := checkWritable_eq_ok.2 writable
  rw [dataWrite, passed, except_ok_bind, checkBounds_bad outside, except_error_bind]

/-- Settles O12: WRITE is one data write after its field checks, and a data write fails in the order of R69. -/
theorem writeStoresToTheSelectedByte : Obligations.WriteStoresToTheSelectedByte := by
  refine ⟨fun op1 op2 op3 => decodeWord_encode (.write op1 op2 op3), fun r _ ram inside => exec_write_ram r ram inside,
    fun r _ rom writable inside => exec_write_rom r rom writable inside,
    fun r _ rom readOnly => exec_write_of_error r (dataWrite_readOnly _ _ rom readOnly),
    fun r _ ram outside => ?_, fun r _ rom writable outside => ?_, conclude_checkRegZeroZero_bad _⟩
  · have sel := State.selected_ram ram
    rw [← sel]
    exact exec_write_of_error r (dataWrite_outside _ (writable_of_ram ram) (by rwa [sel]))
  · have sel := State.selected_rom rom
    rw [← sel]
    exact exec_write_of_error r (dataWrite_outside _ (fun _ => writable) (by rwa [sel]))

/-! ### SWITCH_MEMORY and SET_A (R152, R153) -/

/-- Settles O13: three zeros pass the checks, and the first nonzero field fails its own. -/
theorem switchMemoryTogglesM : Obligations.SwitchMemoryTogglesM :=
  ⟨fun op1 op2 op3 => decodeWord_encode (.switchMemory op1 op2 op3), execSwitchMemory_valid,
    fun _ _ _ s bad => conclude_bind_of_error s (checkZero_bad .op1 bad),
    fun op2 _ s bad => conclude_bind_of_error (check := checkZero .op2 op2) s (checkZero_bad .op2 bad),
    fun op3 s bad => conclude_bind_of_error (check := checkZero .op3 op3) s (checkZero_bad .op3 bad)⟩

/-- Settles O14: zero extension keeps the number, and SET_A checks nothing. -/
theorem setALoadsTheZeroExtendedAddress : Obligations.SetALoadsTheZeroExtendedAddress := by
  refine ⟨fun addr => decodeWord_encode (.setA addr), fun addr s => ?_⟩
  rw [BitVec.ofNat_toNat]
  exact execSetA_valid addr s

/-! ### CONVERT_TO_BASE_10 (R154) -/

/-- Three data writes all store into the memory selected before them. -/
theorem State.dataStore_thrice (s : State) (a b c : Nat) (u v w : Byte) :
    ((s.dataStore a u).dataStore b v).dataStore c w =
      ((s.poke s.selected a u).poke s.selected b v).poke s.selected c w := by
  simp [State.dataStore, State.selected]

/-- A CONVERT_TO_BASE_10 whose three addresses fit stores the digits into the selected memory, and goes on. -/
theorem exec_convertToBase10_stores (r : RegIx) {s : State} (writable : s.m = true → s.cfg.romWritable = true)
    (inside : s.a.toNat + 2 < s.sizeOf s.selected) :
    exec (.convertToBase10 (nibOf r) 0 0) s =
      .next ((((s.poke s.selected s.a.toNat (BitVec.ofNat 8 (s.x[r].toNat / 100))).poke s.selected (s.a.toNat + 1)
        (BitVec.ofNat 8 (s.x[r].toNat / 10 % 10))).poke s.selected (s.a.toNat + 2)
        (BitVec.ofNat 8 (s.x[r].toNat % 10))).commit s.nextPc) := by
  rw [← State.dataStore_thrice]
  exact execConvertToBase10_valid r s writable inside

/-- With good fields CONVERT_TO_BASE_10 checks the memory, then A, A+1 and A+2, before it writes (R154). -/
theorem exec_convertToBase10_checks (r : RegIx) (s : State) :
    ∃ written : State, exec (.convertToBase10 (nibOf r) 0 0) s = conclude s (do
      checkWritable s s.a.toNat
      checkBounds s s.a.toNat
      checkBounds s (s.a.toNat + 1)
      checkBounds s (s.a.toNat + 2)
      return (written, s.nextPc)) := by
  show ∃ written, conclude s (checkRegZeroZero (nibOf r) 0 0 >>= _) = _
  rw [checkRegZeroZero_nibOf]
  exact ⟨_, rfl⟩

theorem exec_convertToBase10_readOnly (r : RegIx) {s : State} (rom : s.m = true)
    (readOnly : s.cfg.romWritable = false) :
    exec (.convertToBase10 (nibOf r) 0 0) s = .next (s.terminate (.resourceRomReadOnly s.a.toNat)) := by
  obtain ⟨_, checks⟩ := exec_convertToBase10_checks r s
  exact checks.trans (conclude_bind_of_error s (checkWritable_bad _ rom readOnly))

/-- The first of the three addresses that lies outside the selected memory gives the reason. -/
theorem exec_convertToBase10_outside (r : RegIx) {s : State} {k : Nat}
    (writable : s.m = true → s.cfg.romWritable = true) (le : k ≤ 2) (outside : s.sizeOf s.selected ≤ s.a.toNat + k)
    (inside : ∀ j < k, s.a.toNat + j < s.sizeOf s.selected) :
    exec (.convertToBase10 (nibOf r) 0 0) s = .next (s.terminate (.boundsData s.selected (s.a.toNat + k))) := by
  obtain ⟨_, checks⟩ := exec_convertToBase10_checks r s
  have passed : checkWritable s s.a.toNat = .ok () := checkWritable_eq_ok.2 writable
  have before (j : Nat) (lt : j < k) : checkBounds s (s.a.toNat + j) = .ok () := checkBounds_eq_ok.2 (inside j lt)
  have fails : checkBounds s (s.a.toNat + k) = .error _ := checkBounds_bad outside
  rw [checks, passed, except_ok_bind]
  obtain rfl | rfl | rfl : k = 0 ∨ k = 1 ∨ k = 2 := by omega
  · exact conclude_bind_of_error s fails
  · have first : checkBounds s s.a.toNat = .ok () := before 0 (by decide)
    rw [first, except_ok_bind]
    exact conclude_bind_of_error s fails
  · have first : checkBounds s s.a.toNat = .ok () := before 0 (by decide)
    rw [first, except_ok_bind, before 1 (by decide), except_ok_bind]
    exact conclude_bind_of_error s fails

/-- Settles O15: the four checks pass together and then all three digits are stored, or the first that fails ends it. -/
theorem convertToBase10WritesThreeDigitsOrNothing : Obligations.ConvertToBase10WritesThreeDigitsOrNothing := by
  refine ⟨fun op1 op2 op3 => decodeWord_encode (.convertToBase10 op1 op2 op3), fun r s ram inside => ?_,
    fun r s rom writable inside => ?_, fun r _ rom readOnly => exec_convertToBase10_readOnly r rom readOnly,
    fun r s k ram le outside inside => ?_, fun r s k rom writable le outside inside => ?_,
    conclude_checkRegZeroZero_bad _⟩
  · have stores := exec_convertToBase10_stores r (s := s) (writable_of_ram ram)
    rw [State.selected_ram ram] at stores
    exact stores inside
  · have stores := exec_convertToBase10_stores r (s := s) (fun _ => writable)
    rw [State.selected_rom rom] at stores
    exact stores inside
  · have stops := exec_convertToBase10_outside r (s := s) (writable_of_ram ram) le
    rw [State.selected_ram ram] at stops
    exact stops outside inside
  · have stops := exec_convertToBase10_outside r (s := s) (fun _ => writable) le
    rw [State.selected_rom rom] at stops
    exact stops outside inside

end Sys2Proof.Machine
end

section
/-! PROOFS. The control transfers (R165-R168): their words, where they go, the checks of their fields, and their frame;
and what the termination checks make of a step at the program's end. -/

namespace Sys2Proof.Machine

/-! ### Two register fields, then a zero, checked in order (R93, R211 (a)) -/

theorem checkRegRegZero_bad_op1 {op1 : Nibble} (op2 op3 : Nibble) (bad : 7 < op1.toNat) :
    checkRegRegZero op1 op2 op3 = .error (.fmtBadRegister .op1 op1) := by
  rw [checkRegRegZero, checkReg_bad .op1 bad, except_error_bind]

theorem checkRegRegZero_bad_op2 (a : RegIx) {op2 : Nibble} (op3 : Nibble) (bad : 7 < op2.toNat) :
    checkRegRegZero (nibOf a) op2 op3 = .error (.fmtBadRegister .op2 op2) := by
  rw [checkRegRegZero, checkReg_nibOf, except_ok_bind, checkReg_bad .op2 bad, except_error_bind]

theorem checkRegRegZero_bad_op3 (a b : RegIx) {op3 : Nibble} (bad : op3 ≠ 0) :
    checkRegRegZero (nibOf a) (nibOf b) op3 = .error (.fmtNonzeroField .op3 op3) := by
  rw [checkRegRegZero, checkReg_nibOf, except_ok_bind, checkReg_nibOf, except_ok_bind, checkZero_bad .op3 bad,
    except_error_bind]

/-- A handler that begins with two register checks and a must-be-zero check ends with the reason of the first that
fails. -/
theorem conclude_checkRegRegZero_bad (rest : State → RegIx × RegIx → Except Reason (State × Word)) :
    (∀ (op1 op2 op3 : Nibble) (s : State), 7 < op1.toNat →
      conclude s (checkRegRegZero op1 op2 op3 >>= rest s) = .next (s.terminate (.fmtBadRegister .op1 op1))) ∧
    (∀ (a : RegIx) (op2 op3 : Nibble) (s : State), 7 < op2.toNat →
      conclude s (checkRegRegZero (nibOf a) op2 op3 >>= rest s) = .next (s.terminate (.fmtBadRegister .op2 op2))) ∧
    (∀ (a b : RegIx) (op3 : Nibble) (s : State), op3 ≠ 0 →
      conclude s (checkRegRegZero (nibOf a) (nibOf b) op3 >>= rest s) =
        .next (s.terminate (.fmtNonzeroField .op3 op3))) :=
  ⟨fun _ op2 op3 s bad => conclude_bind_of_error s (checkRegRegZero_bad_op1 op2 op3 bad),
    fun a _ op3 s bad => conclude_bind_of_error s (checkRegRegZero_bad_op2 a op3 bad),
    fun a b _ s bad => conclude_bind_of_error s (checkRegRegZero_bad_op3 a b bad)⟩

/-! ### Where a control transfer goes (R130, R165-R167) -/

theorem exec_jump_even {target : Addr12} (s : State) (even : target.toNat % 2 = 0) :
    exec (.jump target) s = .next (s.commit (BitVec.ofNat 16 target.toNat)) := by
  rw [← jumpPc_eq_ofNat]
  exact execJump_valid s even

theorem exec_skipEqual_nibOf (a b : RegIx) (s : State) : exec (.skipEqual (nibOf a) (nibOf b) 0) s =
    .next (s.commit (if s.x[a] = s.x[b] then s.pc + 4 else s.pc + 2)) := by
  rw [← State.skipIf_regsEqual]
  exact execSkipEqual_valid a b s

theorem exec_skipNotEqual_nibOf (a b : RegIx) (s : State) : exec (.skipNotEqual (nibOf a) (nibOf b) 0) s =
    .next (s.commit (if s.x[a] = s.x[b] then s.pc + 2 else s.pc + 4)) := by
  rw [← State.skipIf_not_regsEqual]
  exact execSkipNotEqual_valid a b s

/-- Settles O16: JUMP's one check is that its target is even. -/
theorem jumpSetsPc : Obligations.JumpSetsPc :=
  ⟨fun target => decodeWord_encode (.jump target), fun _ => exec_jump_even,
    fun _ s odd => conclude_bind_of_error s (checkEven_eq_error.2 ⟨odd, rfl⟩)⟩

/-- Settles O17: with good fields the comparison picks pc + 4 or pc + 2, and the first check that fails ends it. -/
theorem skipEqualSkipsOnEqualRegisters : Obligations.SkipEqualSkipsOnEqualRegisters := by
  refine ⟨fun op1 op2 op3 => decodeWord_encode (.skipEqual op1 op2 op3), fun a b s equal => ?_,
    fun a b s differ => ?_, conclude_checkRegRegZero_bad _⟩
  · rw [exec_skipEqual_nibOf, if_pos equal]; rfl
  · rw [exec_skipEqual_nibOf, if_neg differ]; rfl

/-- Settles O18: as SKIP_EQUAL, with the comparison the other way round. -/
theorem skipNotEqualSkipsOnDifferentRegisters : Obligations.SkipNotEqualSkipsOnDifferentRegisters := by
  refine ⟨fun op1 op2 op3 => decodeWord_encode (.skipNotEqual op1 op2 op3), fun a b s differ => ?_,
    fun a b s equal => ?_, conclude_checkRegRegZero_bad _⟩
  · rw [exec_skipNotEqual_nibOf, if_neg differ]; rfl
  · rw [exec_skipNotEqual_nibOf, if_pos equal]; rfl

/-! ### The frame of the control transfers (R165-R168) -/

/-- A handler that only checks its fields and picks a next pc records a reason, or moves pc and is counted. -/
theorem conclude_check_only {α : Type} {s t : State} {check : Except Reason α} (goesTo : α → Word)
    (h : conclude s (check >>= fun a => .ok (s, goesTo a)) = .next t) :
    (∃ q, t = s.terminate q) ∨ ∃ p, t = s.commit p := by
  cases check with
  | ok a => exact .inr ⟨goesTo a, (Host.Outcome.next.inj h).symm⟩
  | error q => exact .inl ⟨q, (Host.Outcome.next.inj h).symm⟩

/-- The three handlers check their fields and pick a next pc, and write nothing (R168). -/
theorem exec_control_cases {i : Instr} {s t : State}
    (control : i.opcode = .jump ∨ i.opcode = .skipEqual ∨ i.opcode = .skipNotEqual) (h : exec i s = .next t) :
    (∃ q, t = s.terminate q) ∨ ∃ p, t = s.commit p := by
  cases i with
  | jump target => exact conclude_check_only (fun _ => jumpPc target) h
  | skipEqual => exact conclude_check_only (fun regs : RegIx × RegIx => s.skipIf (s.regsEqual regs.1 regs.2)) h
  | skipNotEqual => exact conclude_check_only (fun regs : RegIx × RegIx => s.skipIf (!s.regsEqual regs.1 regs.2)) h
  | _ => simp [Instr.opcode] at control

/-- Settles O26: neither a termination nor a commit touches anything but RUN, pc and ICOUNT. -/
theorem controlTransferFrame : Obligations.ControlTransferFrame := by
  intro i s t control h
  obtain ⟨q, rfl⟩ | ⟨p, rfl⟩ := exec_control_cases control h
  · exact ⟨rfl, by simp⟩
  · exact ⟨rfl, by simp⟩

/-! ### A step at the program's end (R122, R123) -/

/-- Check B ends the step of a machine whose pc is past the program, when check A does not (R123). -/
theorem step_checkB {s : State} (running : s.run = .running) (notA : ¬ (0 < s.icount ∧ s.pc = 0))
    (past : s.plen ≤ s.pc.toNat) : step s = .next (s.terminate (.haltOutOfProgram s.pc)) :=
  checkBEndsTheRunPastTheProgram.1 s running notA past

/-- A load that succeeds leaves a machine at the start of its run, with the bytes in ROM (R252). -/
theorem State.load_starts_run {s t : State} {bytes : List Byte} (loaded : s.load bytes = .ok t) :
    t.run = .running ∧ t.icount = 0 ∧ t.pc = 0 ∧ t.plen = bytes.length ∧ t.rom = Memory.ofBytes 0 bytes ∧
      t.cfg = s.cfg := by
  unfold State.load at loaded
  split at loaded
  · cases loaded
  · cases loaded
    exact ⟨rfl, rfl, rfl, rfl, rfl, rfl⟩

/-- With an empty program loaded the first step ends the run (R253). -/
theorem step_of_load_nil {s t : State} (loaded : s.load [] = .ok t) :
    step t = .next (t.terminate (.haltOutOfProgram 0)) := by
  obtain ⟨running, uncounted, pc, plen, -, -⟩ := State.load_starts_run loaded
  rw [← pc]
  exact step_checkB running (by simp [uncounted]) (by simp [plen])

/-- The byte past a one-byte program is blank, and the fetch reads it (R125, R253). -/
theorem step_of_load_singleton {s t : State} {b : Byte} (room : 2 ≤ s.cfg.romSize) (loaded : s.load [b] = .ok t) :
    step t = exec (decodeWord (b ++ 0x00#8)) t := by
  obtain ⟨running, uncounted, pc, plen, rom, cfg⟩ := State.load_starts_run loaded
  have high : Memory.read t.rom t.pc.toNat = b := by rw [rom, pc]; exact Memory.read_ofBytes 0 0 [b]
  have low : Memory.read t.rom (t.pc.toNat + 1) = 0x00#8 := by rw [rom, pc]; exact Memory.read_ofBytes 0 1 [b]
  have ran := step_runs_word_at_pc running (by simp [uncounted]) (by simp [pc, plen]) (by simp [pc])
    (by rw [pc, cfg]; exact room)
  rwa [high, low] at ran

/-- A jump past the program is ended by check B at the next step (R165). -/
theorem step_after_jump_past {target : Addr12} {s : State} (running : s.run = .running) (nonzero : target ≠ 0)
    (past : s.plen ≤ target.toNat) :
    step (s.commit (BitVec.ofNat 16 target.toNat)) =
      .next ((s.commit (BitVec.ofNat 16 target.toNat)).terminate
        (.haltOutOfProgram (BitVec.ofNat 16 target.toNat))) := by
  have value : (BitVec.ofNat 16 target.toNat).toNat = target.toNat := by
    rw [BitVec.toNat_ofNat]; omega
  refine step_checkB running (fun halted => ?_) (past.trans_eq value.symm)
  have zero : (BitVec.ofNat 16 target.toNat).toNat = 0 := congrArg BitVec.toNat halted.2
  exact nonzero (BitVec.eq_of_toNat_eq (value.symm.trans zero))

/-- A skip taken from the program's last instruction lands past the program, and check B ends the next step (R166). -/
theorem step_after_skip_past {s : State} (running : s.run = .running) (last : s.pc.toNat + 2 = s.plen)
    (noWrap : s.plen + 2 < 65536) :
    (s.commit (s.pc + 4)).pc.toNat = s.plen + 2 ∧
      step (s.commit (s.pc + 4)) = .next ((s.commit (s.pc + 4)).terminate (.haltOutOfProgram (s.pc + 4))) := by
  have value : (s.pc + 4).toNat = s.plen + 2 := by bv_omega
  refine ⟨value, step_checkB running (fun halted => ?_) (by rw [State.commit_pc, State.commit_plen]; omega)⟩
  have zero : (s.pc + 4).toNat = 0 := congrArg BitVec.toNat halted.2
  omega

/-- Settles O47: each corner case meets the condition of check A or check B, but for the one-byte program's fetch. -/
theorem cornerCasesOfTheTerminationChecks : Obligations.CornerCasesOfTheTerminationChecks := by
  refine ⟨rfl, fun cfg => step_checkB rfl (fun counted => absurd counted.1 (Nat.lt_irrefl 0)) (Nat.zero_le _),
    fun _ _ => step_of_load_nil, fun _ _ _ => step_of_load_singleton, fun s t running jumped => ?jumpToZero,
    fun target s t running even nonzero past jumped => ?jumpPast,
    fun a b s t running last noWrap skipped => ?skipPast⟩
  case jumpToZero =>
    rw [exec_jump_even s rfl] at jumped
    cases jumped
    exact step_checkA running (Nat.succ_pos _) rfl
  case jumpPast =>
    rw [exec_jump_even s even] at jumped
    cases jumped
    exact step_after_jump_past running nonzero past
  case skipPast =>
    obtain ⟨equal, skipped⟩ | ⟨differ, skipped⟩ := skipped
    · rw [exec_skipEqual_nibOf, if_pos equal] at skipped
      cases skipped
      exact step_after_skip_past running last noWrap
    · rw [exec_skipNotEqual_nibOf, if_neg differ] at skipped
      cases skipped
      exact step_after_skip_past running last noWrap

end Sys2Proof.Machine
end

section
/-! PROOFS. The keyboard, timer, conversion and display instructions (R175-R179): their words, what they write, where
they stop and with which reason. -/

namespace Sys2Proof.Machine

/-- A handler whose first check passes goes on with what the check gives. -/
theorem conclude_bind_of_ok {α : Type} {check : Except Reason α} {rest : α → Except Reason (State × Word)} {a : α}
    (s : State) (passed : check = .ok a) : conclude s (check >>= rest) = conclude s (rest a) := by
  rw [passed, except_ok_bind]

/-! ### READ_KEYBOARD (R175, R225) -/

theorem State.keyIn_of_cons {s : State} {k : Byte} {rest : List Byte} (settled : s.keys = k :: rest) : s.keyIn = k := by
  simp only [State.keyIn, settled]

theorem State.keyIn_of_nil {s : State} (unsettled : s.keys = []) : s.keyIn = Config.keyIn s.keyDraws := by
  simp only [State.keyIn, unsettled]

theorem State.keyTaken_of_cons {s : State} {k : Byte} {rest : List Byte} (settled : s.keys = k :: rest) :
    s.keyTaken = { s with keys := rest } := by
  simp only [State.keyTaken, settled]

theorem State.keyTaken_of_nil {s : State} (unsettled : s.keys = []) :
    s.keyTaken = { s with keyDraws := s.keyDraws + 1 } := by
  simp only [State.keyTaken, unsettled]

/-- Settles O19: the provider's answer is the settled key's byte or the free draw, asked for after the field checks. -/
theorem readKeyboardLoadsTheProvidersAnswer : Obligations.ReadKeyboardLoadsTheProvidersAnswer := by
  refine ⟨fun op1 op2 op3 => decodeWord_encode (.readKeyboard op1 op2 op3), fun d k rest s settled => ?_,
    fun d s unsettled => ?_, conclude_checkRegZeroZero_bad _⟩
  · have ran := execReadKeyboard_valid d s
    rw [State.keyTaken_of_cons settled, State.keyIn_of_cons settled] at ran
    exact ran
  · have ran := execReadKeyboard_valid d s
    rw [State.keyTaken_of_nil unsettled, State.keyIn_of_nil unsettled] at ran
    exact ran

/-! ### SET_T and READ_T (R176, R177) -/

/-- With a zero low nibble the byte operand is op2 times 16 (R98, R176). -/
theorem byteOperand_zero_eq_ofNat (op2 : Nibble) : byteOperand op2 0 = BitVec.ofNat 8 (op2.toNat * 16) := by
  have op2Lt := op2.isLt
  have fits : op2.toNat * 16 < 256 := by omega
  refine BitVec.eq_of_toNat_eq ?_
  rw [byteOperand_toNat, BitVec.toNat_ofNat, Nat.mod_eq_of_lt fits]
  rfl

/-- Settles O20: op3 is the one field checked, so the byte operand's low nibble is 0. -/
theorem setTLoadsTheTimer : Obligations.SetTLoadsTheTimer := by
  refine ⟨fun op1 op2 op3 => decodeWord_encode (.setT op1 op2 op3), fun op1 op2 s => ?_,
    fun _ _ _ s bad => conclude_bind_of_error s (checkZero_bad .op3 bad)⟩
  rw [← byteOperand_zero_eq_ofNat]
  exact execSetT_valid op1 op2 s

/-- Settles O21: a register that `nibOf` names and two zeros pass READ_T's checks. -/
theorem readTCopiesTheTimer : Obligations.ReadTCopiesTheTimer :=
  ⟨fun op1 op2 op3 => decodeWord_encode (.readT op1 op2 op3), execReadT_valid, conclude_checkRegZeroZero_bad _⟩

/-! ### CONVERT_BYTE_TO_ASCII (R178) -/

theorem ofNat_add_toNat (n : Nat) (v : Byte) : BitVec.ofNat 8 (n + v.toNat) = BitVec.ofNat 8 n + v := by
  rw [BitVec.ofNat_add, BitVec.ofNat_toNat, BitVec.setWidth_eq]

theorem asciiOfDigit_decimal {v : Byte} (decimal : v.toNat ≤ 9) : asciiOfDigit v = BitVec.ofNat 8 (0x30 + v.toNat) :=
  (if_pos decimal).trans (ofNat_add_toNat 0x30 v).symm

theorem asciiOfDigit_letter {v : Byte} (letter : 10 ≤ v.toNat) : asciiOfDigit v = BitVec.ofNat 8 (0x37 + v.toNat) :=
  (if_neg (Nat.not_le.2 letter)).trans (ofNat_add_toNat 0x37 v).symm

/-- After its field checks the handler refuses a value that is no hex digit. -/
theorem exec_convertByteToAscii_tooLarge (r d : RegIx) (s : State) (large : 16 ≤ (s.x[r]).toNat) :
    exec (.convertByteToAscii (nibOf r) (nibOf d) 0) s = .next (s.terminate (.fmtDigitTooLarge s.x[r])) :=
  Eq.trans (conclude_bind_of_ok s (checkRegRegZero_eq_ok.2 ⟨rfl, rfl, rfl⟩)) <|
    conclude_bind_of_error s (require_eq_error.2 ⟨decide_eq_false (Nat.not_le.2 large), rfl⟩)

/-- Settles O22: each range of digits is one branch of the code, and the value is checked after the fields. -/
theorem convertByteToAsciiGivesTheDigitsCode : Obligations.ConvertByteToAsciiGivesTheDigitsCode := by
  refine ⟨fun op1 op2 op3 => decodeWord_encode (.convertByteToAscii op1 op2 op3), fun r d s decimal => ?_,
    fun r d s letter digit => ?_, exec_convertByteToAscii_tooLarge, conclude_checkRegRegZero_bad _⟩
  · rw [← asciiOfDigit_decimal decimal]
    exact execConvertByteToAscii_valid r d s (decimal.trans (by decide))
  · rw [← asciiOfDigit_letter letter]
    exact execConvertByteToAscii_valid r d s digit

/-! ### DRAW (R179) -/

/-- With a good register DRAW checks the character next. -/
theorem exec_draw_badChar (r : RegIx) (op2 op3 : Nibble) (s : State) (bad : 0x7F < (s.x[r]).toNat) :
    exec (.draw (nibOf r) op2 op3) s = .next (s.terminate (.fmtBadChar s.x[r])) :=
  Eq.trans (conclude_bind_of_ok s (checkReg_nibOf .op1 r)) <|
    conclude_bind_of_error s (require_eq_error.2 ⟨decide_eq_false (Nat.not_le.2 bad), rfl⟩)

/-- With a good register and character DRAW goes on with its row. -/
theorem exec_draw_of_char (r : RegIx) (op2 op3 : Nibble) {s : State} (char : (s.x[r]).toNat ≤ 0x7F) :
    exec (.draw (nibOf r) op2 op3) s = conclude s (checkRow op2 >>= fun _ => checkCol op3 >>= fun _ =>
      .ok (s.displayWrite (cellOf op2 op3) s.x[r], s.nextPc)) :=
  Eq.trans (conclude_bind_of_ok s (checkReg_nibOf .op1 r)) <|
    conclude_bind_of_ok s (require_eq_ok (u := ()).2 (decide_eq_true char))

theorem checkRow_nibOf (row : Fin 8) : checkRow (nibOf row) = .ok () := by
  rw [checkRow, nibOf_toNat, require_eq_ok, decide_eq_true_eq]
  exact Nat.le_of_lt_succ row.isLt

/-- Settles O23: register, character, row and column are checked in this order, and then one cell is written. -/
theorem drawWritesOneCell : Obligations.DrawWritesOneCell := by
  refine ⟨fun op1 op2 op3 => decodeWord_encode (.draw op1 op2 op3),
    execDraw_valid,
    fun _ _ _ s bad => conclude_bind_of_error s (checkReg_bad .op1 bad),
    exec_draw_badChar, fun r op2 op3 s char bad => ?badRow,
    fun r row op3 s char bad => ?badCol⟩
  case badRow =>
    rw [exec_draw_of_char r op2 op3 char]
    exact conclude_bind_of_error s (checkRow_eq_error.2 ⟨bad, rfl⟩)
  case badCol =>
    rw [exec_draw_of_char r (nibOf row) op3 char, checkRow_nibOf, except_ok_bind]
    exact conclude_bind_of_error s (checkCol_eq_error.2 ⟨bad, rfl⟩)

end Sys2Proof.Machine
end

section
/-! PROOFS. The termination reasons (R200-R206): which reasons each instruction can raise, with what information, and
their codes. -/

namespace Sys2Proof.Machine

/-! ### The complaint about a field names it, with its value (R94, R95) -/

theorem complaint_eq_some {u : FieldUse} {field : Field} {n : Nibble} {q : Reason} (h : u.complaint field n = some q) :
    (u = .register ∧ 8 ≤ n.toNat ∧ q = .fmtBadRegister field n) ∨
    (u = .zero ∧ 1 ≤ n.toNat ∧ q = .fmtNonzeroField field n) := by
  cases u with
  | register =>
    obtain ⟨bad, rfl⟩ := checkReg_eq_error.1 (eq_error_of_raised ((raised_checkReg field n).trans h))
    exact .inl ⟨rfl, bad, rfl⟩
  | zero =>
    obtain ⟨bad, rfl⟩ := checkZero_eq_error.1 (eq_error_of_raised ((raised_checkZero field n).trans h))
    exact .inr ⟨rfl, by bv_omega, rfl⟩
  | literal | free => cases h

/-- The first complaint is about one of the three fields, by the use its opcode makes of it. -/
theorem firstComplaint_eq_some {o : Opcode} {f : Fields} {q : Reason}
    (h : firstComplaint o.uses f.op1 f.op2 f.op3 = some q) :
    ∃ field, (o.useOf field).complaint field (f.operand field) = some q := by
  simp only [firstComplaint, Option.or_eq_some_iff] at h
  obtain h1 | ⟨-, h2 | ⟨-, h3⟩⟩ := h
  · exact ⟨.op1, h1⟩
  · exact ⟨.op2, h2⟩
  · exact ⟨.op3, h3⟩

/-! ### The reasons an instruction can raise -/

/-- The reasons an instruction of opcode `o` with operand nibbles `op1`, `op2` and `op3` can raise, with the
information each records (R200, R94-R97, R178, R179, R69). -/
inductive HandlerRaises (s : State) : (o : Opcode) → (op1 op2 op3 : Nibble) → Reason → Prop
  | badField {o : Opcode} {op1 op2 op3 : Nibble} {q : Reason} (bad : firstComplaint o.uses op1 op2 op3 = some q) :
      HandlerRaises s o op1 op2 op3 q
  | oddTarget {op1 op2 op3 : Nibble} (odd : (op1 ++ op2 ++ op3 : Addr12).toNat % 2 = 1) :
      HandlerRaises s .jump op1 op2 op3 (.fmtOddJumpTarget (op1 ++ op2 ++ op3))
  | digitTooLarge {op2 op3 : Nibble} (r : RegIx) (large : 0x10 ≤ (s.reg r).toNat) :
      HandlerRaises s .convertByteToAscii (nibOf r) op2 op3 (.fmtDigitTooLarge (s.reg r))
  | badChar {op2 op3 : Nibble} (r : RegIx) (large : 0x80 ≤ (s.reg r).toNat) :
      HandlerRaises s .draw (nibOf r) op2 op3 (.fmtBadChar (s.reg r))
  | badRow {op1 op2 op3 : Nibble} (bad : 8 ≤ op2.toNat) : HandlerRaises s .draw op1 op2 op3 (.fmtBadRow op2)
  | badCol {op1 op2 op3 : Nibble} (bad : 8 ≤ op3.toNat) : HandlerRaises s .draw op1 op2 op3 (.fmtBadCol op3)
  | writeOutside {op1 op2 op3 : Nibble} (writable : s.m = true → s.cfg.romWritable = true)
      (outside : s.sizeOf s.selected ≤ s.a.toNat) :
      HandlerRaises s .write op1 op2 op3 (.boundsData s.selected s.a.toNat)
  | digitOutside {op1 op2 op3 : Nibble} {k : Nat} (writable : s.m = true → s.cfg.romWritable = true) (le : k ≤ 2)
      (outside : s.sizeOf s.selected ≤ s.a.toNat + k) (inside : ∀ j < k, s.a.toNat + j < s.sizeOf s.selected) :
      HandlerRaises s .convertToBase10 op1 op2 op3 (.boundsData s.selected (s.a.toNat + k))
  | readOnly {o : Opcode} {op1 op2 op3 : Nibble} (storing : o = .write ∨ o = .convertToBase10) (rom : s.m = true)
      (readOnly : s.cfg.romWritable = false) : HandlerRaises s o op1 op2 op3 (.resourceRomReadOnly s.a.toNat)

/-- Field checks that complain as the opcode's uses say raise only what they may. -/
theorem HandlerRaises.of_raised {α : Type} {s : State} {o : Opcode} {op1 op2 op3 : Nibble} {checks : Except Reason α}
    (complains : raised checks = firstComplaint o.uses op1 op2 op3) (q : Reason) (failed : checks = .error q) :
    HandlerRaises s o op1 op2 op3 q :=
  .badField (complains.symm.trans (congrArg raised failed))

/-- A handler's answer that raises only reasons with `P`, or goes on with RUN as it was. -/
inductive RaisesOnly (s : State) (P : Reason → Prop) : Except Reason (State × Word) → Prop
  | ok {w : State} (p : Word) (same : w.run = s.run) : RaisesOnly s P (.ok (w, p))
  | error {q : Reason} (holds : P q) : RaisesOnly s P (.error q)

theorem RaisesOnly.bind {α : Type} {s : State} {P : Reason → Prop} {check : Except Reason α}
    {rest : α → Except Reason (State × Word)} (first : ∀ q, check = .error q → P q)
    (later : ∀ a, check = .ok a → RaisesOnly s P (rest a)) : RaisesOnly s P (check >>= rest) := by
  cases check with
  | ok a => exact later a rfl
  | error q => exact .error (first q rfl)

/-- One check, and the rest of the handler where it passes. -/
theorem RaisesOnly.require {s : State} {P : Reason → Prop} {c : Bool} {q : Reason}
    {rest : Unit → Except Reason (State × Word)} (first : c = false → P q) (later : RaisesOnly s P (rest ())) :
    RaisesOnly s P (require c q >>= rest) := by
  cases c with
  | true => exact later
  | false => exact .error (first rfl)

/-- What a data write raises: the read-only check comes before the bounds (R69). -/
theorem dataWrite_eq_error {s : State} {a : Nat} {v : Byte} {q : Reason} :
    dataWrite s a v = .error q ↔ (s.m = true ∧ s.cfg.romWritable = false ∧ q = .resourceRomReadOnly a) ∨
      ((s.m = true → s.cfg.romWritable = true) ∧ s.sizeOf s.selected ≤ a ∧ q = .boundsData s.selected a) := by
  simp [dataWrite, except_bind_eq_error, checkWritable_eq_error, checkWritable_eq_ok, checkBounds_eq_error]

section Handlers

variable (op1 op2 op3 : Nibble) (s : State)

/-- WRITE raises a field's complaint, or what its data write at A raises (R151, R69). -/
theorem execWrite_raisesOnly : ∃ answer, exec (.write op1 op2 op3) s = conclude s answer ∧
    RaisesOnly s (HandlerRaises s .write op1 op2 op3) answer := by
  refine ⟨_, rfl, .bind (.of_raised (raised_checkRegZeroZero op1 op2 op3)) fun r _ => .bind (fun q failed => ?_)
    fun written stored => ?_⟩
  · obtain ⟨rom, readOnly, rfl⟩ | ⟨writable, outside, rfl⟩ := dataWrite_eq_error.1 failed
    · exact .readOnly (.inl rfl) rom readOnly
    · exact .writeOutside writable outside
  · obtain ⟨-, -, rfl⟩ := dataWrite_eq_ok.1 stored
    exact .ok _ (s.dataStore_run _ _)

/-- CONVERT_TO_BASE_10 raises a field's complaint, or what the first failing check of the memory and of A, A+1 and A+2
raises (R154). -/
theorem execConvertToBase10_raisesOnly : ∃ answer, exec (.convertToBase10 op1 op2 op3) s = conclude s answer ∧
    RaisesOnly s (HandlerRaises s .convertToBase10 op1 op2 op3) answer := by
  refine ⟨_, rfl, .bind (.of_raised (raised_checkRegZeroZero op1 op2 op3)) fun r _ => .bind (fun q failed => ?_)
    fun _ checked => ?_⟩
  · obtain ⟨rom, readOnly, rfl⟩ := checkWritable_eq_error.1 failed
    exact .readOnly (.inr rfl) rom readOnly
  have writable := checkWritable_eq_ok.1 checked
  have outsideAt (k : Nat) (le : k ≤ 2) (inside : ∀ j < k, s.a.toNat + j < s.sizeOf s.selected) (q : Reason)
      (failed : checkBounds s (s.dataAddr k) = .error q) : HandlerRaises s .convertToBase10 op1 op2 op3 q := by
    obtain ⟨outside, rfl⟩ := checkBounds_eq_error.1 failed
    exact .digitOutside writable le outside inside
  refine .bind (outsideAt 0 (by decide) (by simp)) fun _ first => .bind (outsideAt 1 (by decide) fun j lt => ?_)
    fun _ second => .bind (outsideAt 2 (by decide) fun j lt => ?_) fun _ _ => .ok _ (by simp)
  · have inside : s.a.toNat + 0 < _ := checkBounds_eq_ok.1 first
    omega
  · have inside : s.a.toNat + 1 < _ := checkBounds_eq_ok.1 second
    omega

/-- Every instruction raises only the reasons R200 gives it, and sets RUN in no other way. -/
theorem exec_raisesOnly (o : Opcode) : ∃ answer, exec (o.instr op1 op2 op3) s = conclude s answer ∧
    RaisesOnly s (HandlerRaises s o op1 op2 op3) answer := by
  cases o with
  | store =>
    exact ⟨_, rfl, .bind (.of_raised ((raised_checkReg .op1 op1).trans Option.or_none.symm)) fun _ _ => .ok _ rfl⟩
  | add | sub => exact ⟨_, rfl, .bind (.of_raised (raised_checkRegRegReg op1 op2 op3)) fun _ _ => .ok _ rfl⟩
  | read | readT => exact ⟨_, rfl, .bind (.of_raised (raised_checkRegZeroZero op1 op2 op3)) fun _ _ => .ok _ rfl⟩
  | readKeyboard =>
    exact ⟨_, rfl, .bind (.of_raised (raised_checkRegZeroZero op1 op2 op3)) fun _ _ => .ok _ s.keyTaken_run⟩
  | write => exact execWrite_raisesOnly op1 op2 op3 s
  | jump =>
    refine ⟨_, rfl, .bind (fun q failed => ?_) fun _ _ => .ok _ rfl⟩
    obtain ⟨odd, rfl⟩ := checkEven_eq_error.1 failed
    exact .oddTarget odd
  | switchMemory =>
    refine ⟨(do checkZero .op1 op1; checkZero .op2 op2; checkZero .op3 op3) >>= fun _ =>
      .ok (s.toggleSelect, s.nextPc), ?_, .bind (.of_raised (raised_checkZeros op1 op2 op3)) fun _ _ => .ok _ rfl⟩
    simp only [bind_assoc]
    rfl
  | skipEqual | skipNotEqual =>
    exact ⟨_, rfl, .bind (.of_raised (raised_checkRegRegZero op1 op2 op3)) fun _ _ => .ok _ rfl⟩
  | setA => exact ⟨.ok (s.setAddr ((op1 ++ op2 ++ op3).setWidth 16), s.nextPc), rfl, .ok _ rfl⟩
  | setT => exact ⟨_, rfl, .bind (.of_raised (raised_checkZero .op3 op3)) fun _ _ => .ok _ rfl⟩
  | convertToBase10 => exact execConvertToBase10_raisesOnly op1 op2 op3 s
  | convertByteToAscii =>
    refine ⟨_, rfl, .bind (.of_raised (raised_checkRegRegZero op1 op2 op3)) fun (r, d) passed =>
      .require (fun large => ?_) (.ok _ rfl)⟩
    obtain ⟨rfl, -, -⟩ := checkRegRegZero_eq_ok.1 passed
    exact .digitTooLarge r (not_le.1 (of_decide_eq_false large))
  | draw =>
    refine ⟨_, rfl, .bind (.of_raised ((raised_checkReg .op1 op1).trans Option.or_none.symm)) fun r passed =>
      .require (fun large => ?_) (.require (fun bad => ?_) (.require (fun bad => ?_) (.ok _ rfl)))⟩
    · obtain rfl := checkReg_eq_ok.1 passed
      exact .badChar r (not_le.1 (of_decide_eq_false large))
    · exact .badRow (not_le.1 (of_decide_eq_false bad))
    · exact .badCol (not_le.1 (of_decide_eq_false bad))

end Handlers

/-- The reason an instruction ends a running machine with is one of those it can raise. -/
theorem exec_raises {o : Opcode} {op1 op2 op3 : Nibble} {s t : State} {q : Reason} (running : s.run = .running)
    (h : exec (o.instr op1 op2 op3) s = .next t) (ended : t.run = .terminated q) : HandlerRaises s o op1 op2 op3 q := by
  obtain ⟨answer, handled, raises⟩ := exec_raisesOnly op1 op2 op3 s o
  rw [handled] at h
  cases raises with
  | ok p same =>
    cases h
    simp [same, running] at ended
  | error holds =>
    cases h
    cases ended
    exact holds

theorem writable_of_selected_rom {s : State} (writable : s.m = true → s.cfg.romWritable = true)
    (rom : s.selected = .rom) : s.cfg.romWritable = true :=
  writable (by simpa [State.selected] using rom)

/-- Settles O41: a termination check, the fetch or the handler of the fetched word gives the reason. -/
theorem reasonsRecordTheirInformation : Obligations.ReasonsRecordTheirInformation := by
  intro s t q f o running h ended fields opcode
  rcases step_cases s with ⟨_, already, -⟩ | ⟨-, q', failed, hs⟩ | ⟨-, -, w, fetched, hs⟩
  · simp [running] at already
  · cases hs.symm.trans h
    cases ended
    obtain halted | ⟨-, faulted⟩ := failed
    · obtain ⟨counted, zero, rfl⟩ | ⟨-, past, rfl⟩ := terminationCheck_eq_error.1 halted
      · exact ⟨zero, counted⟩
      · exact ⟨rfl, past⟩
    · obtain ⟨odd, rfl⟩ | ⟨-, past, rfl⟩ := fetch_eq_error.1 faulted
      · exact ⟨rfl, odd⟩
      · exact ⟨rfl, past⟩
  · obtain ⟨-, -, word⟩ := fetch_eq_ok.1 fetched
    rw [← word] at fields
    obtain ⟨o', op1, op2, op3, rfl⟩ := Word.exists_nibbles w
    rw [fieldsOf_nibbles4] at fields
    subst fields
    rw [Opcode.ofNibble_code] at opcode
    subst opcode
    rw [hs, decodeWord_nibbles4] at h
    cases exec_raises running h ended with
    | badField bad =>
      obtain ⟨field, complains⟩ :=
        firstComplaint_eq_some (f := ⟨o.code, op1, op2, op3, op2 ++ op3, op1 ++ op2 ++ op3⟩) bad
      obtain ⟨used, large, rfl⟩ | ⟨used, nonzero, rfl⟩ := complaint_eq_some complains
      · exact ⟨used, rfl, large⟩
      · exact ⟨used, rfl, nonzero⟩
    | oddTarget odd => exact ⟨rfl, rfl, odd⟩
    | digitTooLarge r large => exact ⟨rfl, large, r, rfl, rfl⟩
    | badChar r large => exact ⟨rfl, large, r, rfl, rfl⟩
    | badRow bad => exact ⟨rfl, rfl, bad⟩
    | badCol bad => exact ⟨rfl, rfl, bad⟩
    | writeOutside writable outside => exact ⟨rfl, outside, writable_of_selected_rom writable, .inl ⟨rfl, rfl⟩⟩
    | digitOutside writable le outside inside =>
      exact ⟨rfl, outside, writable_of_selected_rom writable, .inr ⟨rfl, _, le, rfl, inside⟩⟩
    | readOnly storing rom readOnly => exact ⟨storing, rfl, rom, readOnly⟩

/-! ### The codes -/

/-- The errors are the reasons of code 16 and up (R201). -/
theorem Reason.isError_iff_code (q : Reason) : q.isError = true ↔ 16 ≤ q.code := by
  cases q <;> simp [Reason.isError, Reason.category, Reason.code]

/-- The FormatErrors are the reasons of code 16 to 23 (R202). -/
theorem Reason.formatError_iff_code (q : Reason) : q.category = .formatError ↔ 16 ≤ q.code ∧ q.code ≤ 23 := by
  cases q <;> simp [Reason.category, Reason.code]

/-- Settles O42: the codes are R200's own numbers, and both divisions hold reason by reason. -/
theorem reasonCodesDivideAt16 : Obligations.ReasonCodesDivideAt16 :=
  ⟨rfl, fun _ => rfl, fun _ _ => rfl, fun _ _ => rfl, fun _ => rfl, fun _ => rfl, fun _ => rfl, fun _ => rfl,
    fun _ => rfl, fun _ => rfl, fun _ => rfl, fun _ _ => rfl, fun _ => rfl, Reason.isError_iff_code,
    Reason.formatError_iff_code⟩

end Sys2Proof.Machine
end

section
/-! PROOFS. The host's side of a run (R215-R231): ticks, the accessors, direct memory access, the bounded run, and
render. -/

namespace Sys2Proof.Machine

/-! ### Ticks (R215) -/

/-- What T is set to hides a tick before, which changes T alone. -/
theorem State.setTimer_tick (s : State) (v : Byte) : s.tick.setTimer v = s.setTimer v := by
  unfold State.tick
  split <;> rfl

/-- Ticks change T alone. -/
theorem tick_iterate_eq_setTimer (k : Nat) (s : State) : State.tick^[k] s = s.setTimer (State.tick^[k] s).t := by
  induction k generalizing s with
  | zero => rfl
  | succ k ih => exact (ih s.tick).trans (s.setTimer_tick _)

/-- `k` ticks lower T by `k`, down to 0, and change nothing else. -/
theorem tick_iterate_eq (k : Nat) (s : State) : State.tick^[k] s = s.setTimer (BitVec.ofNat 8 (s.t.toNat - k)) := by
  rw [tick_iterate_eq_setTimer, ← tick_iterate_t_toNat, BitVec.ofNat_toNat, BitVec.setWidth_eq]

/-- Settles O51: one tick is the case `k = 1`. -/
theorem ticksLowerTheTimerTowardZero : Obligations.TicksLowerTheTimerTowardZero :=
  ⟨tick_iterate_eq 1, fun s k => tick_iterate_eq k s⟩

/-! ### The accessors (R228) -/

@[simp] theorem regIndex_val (r : RegIx) : regIndex r.val = some r := by
  have inside : (0 : Int) ≤ r.val ∧ (r.val : Int) ≤ 7 := by omega
  rw [regIndex, dif_pos inside]
  rfl

theorem regIndex_eq_none {i : Int} : regIndex i = none ↔ i < 0 ∨ 7 < i := by
  unfold regIndex
  split <;> simp <;> omega

/-- A value of `w` bits passes through the host's integers unchanged. -/
theorem ofInt_toNat {w : Nat} (v : BitVec w) : BitVec.ofInt w v.toNat = v := by
  rw [BitVec.ofInt_natCast, BitVec.ofNat_toNat, BitVec.setWidth_eq]

/-- A rejected host action changes no state (R228, R229, R251). -/
theorem HostAction.apply_of_error {act : HostAction} {s : State} {e : UsageError} (rejected : act.attempt s = .error e) :
    act.apply s = s := by
  rw [HostAction.apply, rejected]

/-- A host action leaves RUN where the state it would set has it as before, since a rejected one changes nothing. -/
theorem HostAction.apply_run {act : HostAction} {s : State} (same : ∀ t, act.attempt s = .ok t → t.run = s.run) :
    (act.apply s).run = s.run := by
  cases answer : act.attempt s with
  | ok t => rw [HostAction.apply, answer]; exact same t answer
  | error e => rw [HostAction.apply_of_error answer]

/-- A setter that accepts a range sets the one state it may set. -/
theorem eq_of_accepted {inRange : Prop} [Decidable inRange] {set t : State} {e : UsageError}
    (accepted : (if inRange then Except.ok set else .error e) = .ok t) : t = set := by
  split at accepted
  · exact (Except.ok.inj accepted).symm
  · cases accepted

/-- The setter of a register, by the register its index names. -/
theorem State.setRegister_val (s : State) (r : RegIx) (v : Int) : s.setRegister r.val v =
    if 0 ≤ v ∧ v ≤ 255 then .ok (s.setReg r (BitVec.ofInt 8 v)) else .error .rejected := by
  simp only [State.setRegister, regIndex_val]

/-- An index outside 0-7 names no register. -/
theorem State.setRegister_no_register (s : State) {i : Int} (bad : i < 0 ∨ 7 < i) (v : Int) :
    s.setRegister i v = .error .rejected := by
  simp only [State.setRegister, regIndex_eq_none.2 bad]

/-- An index is one of the eight names, or outside 0-7. -/
theorem register_index_cases (i : Int) : (i < 0 ∨ 7 < i) ∨ ∃ r : RegIx, i = r.val := by
  by_cases bad : i < 0 ∨ 7 < i
  · exact .inl bad
  · exact .inr ⟨⟨i.toNat, by omega⟩, by simp; omega⟩

theorem State.setRegister_run {s t : State} {i v : Int} (accepted : s.setRegister i v = .ok t) : t.run = s.run := by
  obtain bad | ⟨r, rfl⟩ := register_index_cases i
  · rw [State.setRegister_no_register s bad] at accepted
    cases accepted
  · rw [State.setRegister_val] at accepted
    rw [eq_of_accepted accepted, State.setReg_run]

/-- Settles O52: each setter is one test of its range, and what it sets is the value the host gave. -/
theorem settersAcceptExactlyTheirRanges : Obligations.SettersAcceptExactlyTheirRanges := by
  refine ⟨fun s r v => ?setRegister, fun s i v bad => ?badRegister, fun s v even => ?setPc,
    fun s v bad => if_neg (by omega), fun s v => ?setTimer, fun s v bad => if_neg (by omega), fun s v => ?setAddress, fun s v bad => if_neg (by omega),
    fun _ _ => rfl, fun _ _ _ => HostAction.apply_of_error, fun s i v => ?run, fun s r => ?getRegister,
    fun _ => ⟨rfl, rfl, rfl, rfl⟩⟩
  case setRegister => rw [State.setRegister_val, if_pos (by omega), ofInt_toNat]; rfl
  case badRegister =>
    obtain outside | ⟨r, rfl⟩ := register_index_cases i
    · exact s.setRegister_no_register outside v
    · rw [State.setRegister_val, if_neg (by omega)]
  case setPc => rw [State.setPc, if_pos (by omega), ofInt_toNat]
  case setTimer => rw [State.setTimerTo, if_pos (by omega), ofInt_toNat]; rfl
  case setAddress => rw [State.setAddress, if_pos (by omega), ofInt_toNat]; rfl
  case run =>
    refine ⟨HostAction.apply_run fun _ => State.setRegister_run, HostAction.apply_run fun _ accepted => ?_,
      HostAction.apply_run fun _ accepted => ?_, HostAction.apply_run fun _ accepted => ?_⟩
    · rw [eq_of_accepted accepted]
    · rw [eq_of_accepted accepted, State.setTimer_run]
    · rw [eq_of_accepted accepted, State.setAddr_run]
  case getRegister => rw [State.getRegister, regIndex_val]; rfl

/-! ### Direct memory access (R62, R63, R229) -/

/-- A direct write to a writable memory is one test of the address and the value (R63). -/
theorem State.strictWrite_writable (s : State) {sp : Space} (writable : sp = .rom → s.cfg.romWritable = true)
    (a v : Int) : s.strictWrite sp a v = if 0 ≤ a ∧ a < s.sizeOf sp ∧ 0 ≤ v ∧ v ≤ 255
      then .ok (s.poke sp a.toNat (BitVec.ofInt 8 v)) else .error .outOfRange := by
  rw [State.strictWrite, if_neg]
  rintro ⟨rom, readOnly⟩
  exact nomatch (writable rom).symm.trans readOnly

/-- A direct write of a byte inside a writable memory stores it. -/
theorem State.strictWrite_inside (s : State) {sp : Space} (writable : sp = .rom → s.cfg.romWritable = true) {b : Nat}
    (inside : b < s.sizeOf sp) (v : Byte) : s.strictWrite sp b v.toNat = .ok (s.poke sp b v) := by
  rw [State.strictWrite_writable s writable, if_pos (by omega), ofInt_toNat, Int.toNat_natCast]

/-- Settles O53: the strict primitives test writability, then the ranges. -/
theorem directMemoryAccessIsStrict : Obligations.DirectMemoryAccessIsStrict := by
  refine ⟨fun s sp b inside => ?read, fun s sp b outside => if_neg (by omega),
    fun s b v inside => s.strictWrite_inside (sp := .ram) nofun inside v,
    fun s b v writable inside => s.strictWrite_inside (sp := .rom) (fun _ => writable) inside v,
    fun s b v readOnly => if_pos ⟨rfl, readOnly⟩, fun s sp b v writable bad => ?outOfRange,
    fun _ sp b v _ => HostAction.apply_of_error (act := .writeMemory sp b v)⟩
  case read => rw [State.strictRead, if_pos (by omega), Int.toNat_natCast]
  case outOfRange => rw [State.strictWrite_writable s writable, if_neg (by omega)]

/-! ### The bounded run (R231) -/

theorem runBound_zero_of_running {s : State} (running : s.run = .running) (ticks : List Nat) :
    runBound 0 ticks s = .next (.boundReached, s) := by
  simp [runBound, running]

theorem runBound_zero_of_terminated {s : State} {q : Reason} (ended : s.run = .terminated q) (ticks : List Nat) :
    runBound 0 ticks s = .next (.terminated q, s) := by
  simp [runBound, ended]

section Succ

variable {n : Nat} {ticks : List Nat} {s t : State} (h : step (State.tick^[ticks.headD 0] s) = .next t)

include h

/-- A bounded run goes on after a step that leaves RUN Running. -/
theorem runBound_succ_of_running (running : t.run = .running) :
    runBound (n + 1) ticks s = runBound n ticks.tail t := by
  simp only [runBound, h, running]

/-- A bounded run stops at a step that leaves RUN Terminated. -/
theorem runBound_succ_of_terminated {q : Reason} (ended : t.run = .terminated q) :
    runBound (n + 1) ticks s = .next (.terminated q, t) := by
  simp only [runBound, h, ended]

end Succ

/-- With no ticks the steps of a bounded run are those of `core.run`. -/
theorem runEvents_tickedSteps_nil (n : Nat) (s t : State) :
    runEvents (tickedSteps n []) s = .next t ↔ Sys2Proof.core.run n s = .next t := by
  induction n generalizing s with
  | zero => rfl
  | succ n ih =>
    simp only [runEvents_tickedSteps_succ, core_run_succ, List.headD_nil, List.tail_nil, Function.iterate_zero, id, ih]

/-- A step counts one instruction where it leaves RUN Running, and none where it leaves RUN Terminated (R131-R133). -/
theorem step_counts {s t : State} (h : step s = .next t) :
    (t.run = .running ∧ t.icount = s.icount + 1) ∨ ∃ q, t.run = .terminated q ∧ t.icount = s.icount := by
  cases hr : s.run with
  | terminated q =>
    cases (step_terminated hr).symm.trans h
    exact .inr ⟨q, hr, rfl⟩
  | running =>
    obtain ⟨q, rfl⟩ | completed := step_terminates_or_completes hr h
    · exact .inr ⟨q, rfl, rfl⟩
    · exact .inl completed

/-- A bounded run under a tick schedule completes its `n` instructions by `n` steps, or reaches a termination within
them. -/
theorem runBound_cases (n : Nat) (ticks : List Nat) (s : State) :
    (∃ t, runBound n ticks s = .next (.boundReached, t) ∧ t.run = .running ∧ t.icount = s.icount + n ∧
      runEvents (tickedSteps n ticks) s = .next t) ∨
    (∃ q t, runBound n ticks s = .next (.terminated q, t) ∧ t.run = .terminated q ∧
      (∃ m ≤ n, m + s.icount = t.icount) ∧ ∃ k ≤ n, runEvents (tickedSteps k ticks) s = .next t) := by
  induction n generalizing ticks s with
  | zero =>
    cases hr : s.run with
    | running => exact .inl ⟨s, runBound_zero_of_running hr ticks, hr, rfl, rfl⟩
    | terminated q =>
      exact .inr ⟨q, s, runBound_zero_of_terminated hr ticks, hr, ⟨0, le_rfl, Nat.zero_add _⟩, 0, le_rfl, rfl⟩
  | succ n ih =>
    obtain ⟨u, hu⟩ := step_next (State.tick^[ticks.headD 0] s)
    obtain ⟨running, count⟩ | ⟨q, ended, count⟩ := step_counts hu <;> rw [tick_iterate_icount] at count
    · rw [runBound_succ_of_running hu running]
      obtain ⟨t, ran, run, counts, events⟩ | ⟨q, t, ran, run, ⟨m, mLe, counts⟩, k, kLe, events⟩ := ih ticks.tail u
      · exact .inl ⟨t, ran, run, by omega, (runEvents_tickedSteps_succ n ticks s t).2 ⟨u, hu, events⟩⟩
      · exact .inr ⟨q, t, ran, run, ⟨m + 1, by omega, by omega⟩, k + 1, by omega,
          (runEvents_tickedSteps_succ k ticks s t).2 ⟨u, hu, events⟩⟩
    · exact .inr ⟨q, u, runBound_succ_of_terminated hu ended, ended, ⟨0, by omega, by omega⟩, 1, by omega,
        (runEvents_tickedSteps_succ 0 ticks s u).2 ⟨u, hu, rfl⟩⟩

/-- Settles O54: the two reports are the two cases of a bounded run. -/
theorem boundedRunReports : Obligations.BoundedRunReports := by
  intro n ticks s
  have plain (k : Nat) (t : State) (events : runEvents (tickedSteps k ticks) s = .next t) (noTicks : ticks = []) :
      Sys2Proof.core.run k s = .next t := by
    subst noTicks
    exact (runEvents_tickedSteps_nil k s t).1 events
  obtain ⟨t, ran, running, count, events⟩ | ⟨q, t, ran, ended, count, k, le, events⟩ := runBound_cases n ticks s
  · exact ⟨_, t, ran, fun _ => ⟨running, count, events, plain n t events⟩, nofun⟩
  · refine ⟨_, t, ran, nofun, ?_⟩
    rintro _ ⟨⟩
    exact ⟨ended, count, k, le, events, plain k t events⟩

/-! ### render (R224) -/

theorem State.renderLine_getElem? (s : State) (row col : Fin 8) :
    (s.renderLine row)[col.val]? = some (glyph s.disp[row.val * 8 + col.val]) := by
  simp [State.renderLine, cellIndex]

theorem State.renderLines_getElem? (s : State) (row : Fin 8) : s.renderLines[row.val]? = some (s.renderLine row) := by
  simp [State.renderLines]

theorem State.renderLine_congr {s t : State} (same : t.disp = s.disp) : t.renderLine = s.renderLine := by
  funext row
  simp only [State.renderLine, same]

theorem State.renderLines_congr {s t : State} (same : t.disp = s.disp) : t.renderLines = s.renderLines := by
  rw [State.renderLines, State.renderLines, State.renderLine_congr same]

theorem State.renderText_congr {s t : State} (same : t.disp = s.disp) (layout : RenderLayout) :
    t.renderText layout = s.renderText layout := by
  rw [State.renderText, State.renderText, State.renderLines_congr same]

/-- Settles O55: render maps the eight rows to lines, and each line maps its eight cells to glyphs. -/
theorem renderShowsEveryCell : Obligations.RenderShowsEveryCell := fun s =>
  ⟨by simp [State.renderLines],
    fun row col => ⟨by simp [State.renderLine], s.renderLines_getElem? row, s.renderLine_getElem? row col⟩,
    fun _ layout same => ⟨State.renderLines_congr same, State.renderText_congr same layout⟩,
    fun _ => ⟨List.append_nil _, rfl⟩⟩

end Sys2Proof.Machine
end

section
/-! PROOFS. Construction, load and reset (R250-R254), and the interface's placement of a word (log 15). -/

namespace Sys2Proof.Machine

/-! ### What every run starts from (R250, R252, R254) -/

/-- The registers a run starts with. -/
theorem zeroRegisters_getElem (r : RegIx) : (Vector.replicate 8 (0x00 : Byte))[r] = 0 := Vector.getElem_replicate r.isLt

/-- The display a run starts with. -/
theorem blankDisplay_getElem (k : Fin 64) : (Vector.replicate 64 (0x20 : Byte))[k] = 0x20 :=
  Vector.getElem_replicate k.isLt

/-- Settles O46: both memories are empty lists, and an unlisted byte is 0. -/
theorem constructionState : Obligations.ConstructionState := fun _ =>
  ⟨rfl, zeroRegisters_getElem, rfl, rfl, rfl, rfl, fun sp _ => by cases sp <;> rfl, blankDisplay_getElem, rfl, rfl, rfl⟩

/-- Settles O49: each field is one the machine reset sets, or one it leaves. -/
theorem resetStartsANewRun : Obligations.ResetStartsANewRun := fun s =>
  ⟨s.machineReset, rfl, zeroRegisters_getElem, rfl, rfl, rfl, rfl, fun _ => rfl, blankDisplay_getElem, rfl, rfl, rfl, rfl,
    rfl⟩

/-! ### load (R251, R252) -/

section Load

variable {s t : State} {bytes : List Byte}

theorem State.load_tooLarge (large : s.cfg.romSize < bytes.length) : s.load bytes = .error .tooLarge := if_pos large

/-- A load that fits is a machine reset with the program and its length put in. -/
theorem State.load_of_fits (fits : bytes.length ≤ s.cfg.romSize) :
    s.load bytes = .ok { s.machineReset with rom := Memory.ofBytes 0 bytes, plen := bytes.length } :=
  if_neg (Nat.not_lt.2 fits)

/-- ROM after a load from address 0: the program, and 0 past its end (R252). -/
theorem Memory.read_ofBytes_zero (b : Nat) : Memory.read (Memory.ofBytes 0 bytes) b = bytes.getD b 0 :=
  (Memory.read_ofBytes 0 b bytes).trans (if_pos (Nat.zero_le b))

/-- A load has already done what a reset does. -/
theorem State.machineReset_of_load (loaded : s.load bytes = .ok t) : t.machineReset = t := by
  obtain large | fits := Nat.lt_or_ge s.cfg.romSize bytes.length
  · cases (State.load_tooLarge large).symm.trans loaded
  · cases (State.load_of_fits fits).symm.trans loaded
    rfl

end Load

/-- Settles O48: a load is refused for its length alone, and is a machine reset otherwise. -/
theorem loadStartsANewRunOrChangesNothing : Obligations.LoadStartsANewRunOrChangesNothing := by
  refine ⟨fun s bytes large => ?tooLarge, fun s bytes fits => ⟨_, State.load_of_fits fits, Memory.read_ofBytes_zero, rfl,
    zeroRegisters_getElem, rfl, rfl, rfl, rfl, fun _ => rfl, blankDisplay_getElem, rfl, rfl, rfl⟩⟩
  have rejected := State.load_tooLarge large
  exact ⟨rejected, HostAction.apply_of_error (act := .load bytes) rejected⟩

/-! ### reset() after a run (R254) -/

/-- A reset keeps ROM, PLEN, the configuration and the provider's answers, and forgets all else. -/
theorem State.machineReset_congr {t u : State} (rom : u.rom = t.rom) (plen : u.plen = t.plen) (cfg : u.cfg = t.cfg) :
    u.machineReset = { t.machineReset with keys := u.keys, keyDraws := u.keyDraws } := by
  simp only [State.machineReset, State.regFileReset, State.displayClear, rom, plen, cfg]

/-- Settles O50: no step changes read-only ROM, PLEN or the configuration, and a reset keeps nothing else but the
provider's answers. -/
theorem resetRerunsTheLoadedProgram : Obligations.ResetRerunsTheLoadedProgram := by
  intro s t u bytes n readOnly loaded ran
  obtain ⟨-, -, -, -, -, cfgLoad⟩ := State.load_starts_run loaded
  obtain ⟨rom, plen, cfg⟩ := readOnlyRomNeverChanges n t u (by rw [cfgLoad]; exact readOnly) ran
  rw [State.machineReset_congr rom plen cfg, State.machineReset_of_load loaded]

/-! ### The placed word (log 15) -/

/-- The word the interface takes from a table's bits. -/
def tableWord (nbits w : Nat) : Word := BitVec.ofNat 16 (w % 2 ^ nbits)

/-- A table's word of 16 bits is taken whole. -/
theorem tableWord_sixteen (w : Nat) : tableWord 16 w = BitVec.ofNat 16 w :=
  BitVec.eq_of_toNat_eq (Nat.mod_mod w (2 ^ 16))

theorem decodeTableWord_eq (nbits w : Nat) : decodeTableWord nbits w = some (decodeWord (tableWord nbits w)) :=
  congrArg (some ∘ decodeWord) (wordOfBytes_hiByte_loByte (tableWord nbits w))

section PlacedWord

variable {s : State} (nbits w : Nat)

/-- The pc of a placement is even, with two ROM bytes there, if ROM holds a word (R125). -/
theorem State.withFetchWord_pc_fetchable (room : 2 ≤ s.cfg.romSize) :
    (s.withFetchWord nbits w).pc.toNat % 2 = 0 ∧ (s.withFetchWord nbits w).pc.toNat + 1 < s.cfg.romSize := by
  simp only [State.withFetchWord]
  split
  · next own => simpa [State.fetchable] using own
  · exact ⟨rfl, room⟩

/-- A placement changes ROM as two stores do, at the pc it chooses. -/
theorem State.withFetchWord_rom (s : State) : (s.withFetchWord nbits w).rom =
    ((s.poke .rom (s.withFetchWord nbits w).pc.toNat (hiByte (tableWord nbits w))).poke .rom
      ((s.withFetchWord nbits w).pc.toNat + 1) (loByte (tableWord nbits w))).rom := rfl

/-- A placement keeps the invariant. -/
theorem State.Inv.withFetchWord (inv : s.Inv) (room : 2 ≤ s.cfg.romSize) : (s.withFetchWord nbits w).Inv := by
  obtain ⟨even, fits⟩ := State.withFetchWord_pc_fetchable nbits w room
  have high := inv.poke (sp := .rom) (Nat.lt_of_succ_lt fits) (hiByte (tableWord nbits w))
  obtain ⟨legal, -, plen, ramWf, ramIn, romWf, romIn, disp⟩ := high.poke (sp := .rom) fits (loByte (tableWord nbits w))
  exact ⟨legal, even, max_le plen fits, ramWf, ramIn, romWf, romIn, disp⟩

/-- The two bytes at a placement's pc are the placed word's. -/
theorem State.withFetchWord_bytes (romWf : Memory.wf s.rom = true) :
    wordOfBytes (Memory.read (s.withFetchWord nbits w).rom (s.withFetchWord nbits w).pc.toNat)
      (Memory.read (s.withFetchWord nbits w).rom ((s.withFetchWord nbits w).pc.toNat + 1)) = tableWord nbits w := by
  rw [State.withFetchWord_rom]
  generalize (s.withFetchWord nbits w).pc.toNat = p
  simp [Memory.read_write, Memory.wf_write, romWf, wordOfBytes_hiByte_loByte]

/-- The step after a placement passes both checks and runs the placed word (R120, R125). -/
theorem step_withFetchWord (inv : s.Inv) (room : 2 ≤ s.cfg.romSize) :
    step (s.withFetchWord nbits w) = exec (decodeWord (tableWord nbits w)) (s.withFetchWord nbits w) := by
  obtain ⟨even, fits⟩ := State.withFetchWord_pc_fetchable nbits w room
  obtain ⟨-, -, -, -, -, romWf, -, -⟩ := inv
  rw [← State.withFetchWord_bytes nbits w romWf]
  refine step_runs_word_at_pc rfl ?notA ?inside even fits
  case notA =>
    rintro ⟨counted, zero⟩
    have uncounted : (s.withFetchWord nbits w).icount = 0 := if_pos zero
    omega
  case inside =>
    have reaches : (s.withFetchWord nbits w).pc.toNat + 2 ≤ (s.withFetchWord nbits w).plen := le_max_right _ _
    omega

end PlacedWord

/-- Settles O60: a placement of 16 bits, from a state with the invariant. -/
theorem placedWordIsRunNext : Obligations.PlacedWordIsRunNext := by
  intro s w inv room
  rw [← tableWord_sixteen]
  exact ⟨step_withFetchWord 16 w inv room, inv.withFetchWord 16 w room, decodeTableWord_eq 16 w⟩

end Sys2Proof.Machine
end
